-- ==== Sys2Proof/Word.lean ====
section
/-! DEFINITION. The words of the engine (R8): bytes and 6-bit register addresses, all unsigned, with the
bit operations of `BitVec` (results truncate to the width). -/

namespace Sys2Proof

/-- A byte; bit 7 is the most significant (R8). -/
abbrev Byte := BitVec 8

/-- A 6-bit chip register address, 0 to 63 (R41). -/
abbrev Addr := BitVec 6

end Sys2Proof
end

