-- ==== Sys2Proof/Syntax.lean ====
section
/-! DEFINITION. The instructions: one constructor of `Instr` per row of spec/opcode_table.json, with the
names their operands use. -/

namespace Sys2Proof

/-- The result of a protocol step (R11); the two-bit codes are R143's, `Machine.statusCode`. -/
inductive Status where
  | ok | noTag | error | timeout
  deriving DecidableEq, Repr

/-- The chip's operations (R32, R65), in the order of R65's table. -/
inductive ChipCmd where
  | idle | calcCrc | transmit | receive | transceive | mfAuthent | softReset
  deriving DecidableEq, Repr

/-- A five-byte card identifier: four data bytes and the checksum byte (R23). -/
structure CardId where
  (b0 b1 b2 b3 b4 : Byte)
  deriving DecidableEq, Repr

/-- The identifier of five zero bytes. -/
abbrev CardId.zero : CardId := ⟨0, 0, 0, 0, 0⟩

/-- The instruction set: the rows of the opcode table. -/
inductive Instr where
  /-- WRREG, write transaction (R61, R84) -/
  | wrreg (a : Addr) (d : Byte)
  /-- RDREG, read transaction (R62, R85) -/
  | rdreg (a : Addr)
  /-- CMD.IDLE (R65) -/
  | cmdIdle
  /-- CMD.CALCCRC (R65) -/
  | cmdCalccrc
  /-- CMD.TRANSMIT (R65) -/
  | cmdTransmit
  /-- CMD.RECEIVE (R65) -/
  | cmdReceive
  /-- CMD.TRANSCEIVE (R65) -/
  | cmdTransceive
  /-- CMD.MFAUTHENT (R65) -/
  | cmdMfauthent
  /-- CMD.SOFTRESET (R65) -/
  | cmdSoftreset
  /-- FRAME.REQA, format F1 with mode 0x26 (R67) -/
  | frameReqa
  /-- FRAME.REQALL, format F1 with mode 0x52 (R68) -/
  | frameReqall
  /-- FRAME.ANTICOLL, format F2 (R69) -/
  | frameAnticoll
  /-- FRAME.SELECT, format F9: identifier and CRC low, high (R70) -/
  | frameSelect (uid : CardId) (crcLo crcHi : Byte)
  /-- FRAME.HALT, format F4: CRC low, high (R71) -/
  | frameHalt (crcLo crcHi : Byte)
  /-- INIT, host operation 0 (R133) -/
  | init
  /-- VERSION, host operation 1 (R134) -/
  | version
  /-- CHECKCARD, host operation 2 (R135) -/
  | checkcard
  /-- COMPAREIDS, host operation 3; its operands are the registers IDA and IDB latched at the start (R29, R138) -/
  | compareids
  /-- REQUEST with request mode m (R118) -/
  | request (m : Byte)
  /-- ANTICOLL (R121) -/
  | anticoll
  /-- SELECT (R124) -/
  | select
  /-- HALT (R127) -/
  | halt
  /-- TOCARD with one of the seven chip commands (R91, R92) -/
  | tocard (cmd : ChipCmd)
  /-- CALCCRC (R110) -/
  | calccrc
  /-- SETBM (R87) -/
  | setbm (a : Addr) (m : Byte)
  /-- CLRBM (R88) -/
  | clrbm (a : Addr) (m : Byte)
  /-- IDLE, no operation running (R27, R162) -/
  | idle
  deriving DecidableEq, Repr

end Sys2Proof
end

