-- ==== Sys2Proof/Config.lean ====
section
/-! DEFINITION. The configuration record `Cfg` (R7), constant for a whole run, and the free values of the
environment (R43). The defaults of addresses, command codes and INIT_PROGRAM are the spec's, which marks
them as general knowledge (PRESUMED, log 6); no statement may rest on them. -/

namespace Sys2Proof

/-- One register access or delay: an item of `INIT_PROGRAM` (R133), also the unit a micro-operation expands to (R93). -/
inductive Item where
  /-- WriteReg(a, v) -/
  | write (a : Addr) (v : Byte)
  /-- SetBitMask(a, m) -/
  | setBits (a : Addr) (m : Byte)
  /-- ClearBitMask(a, m) -/
  | clearBits (a : Addr) (m : Byte)
  /-- Delay(ms), a 16-bit count (R9, U19) -/
  | delay (ms : BitVec 16)
  deriving DecidableEq, Repr

/-- The configuration record, field by field as R7 lists it. `MAX_LEN` is not a field: it is the fixed size 16
of the two buffers (R7, D39). -/
structure Cfg where
  pollBudget : BitVec 16
  crcBudget : BitVec 16
  reqMode : Byte
  reqSilentStatus : Status
  regCommand : Addr
  regComIen : Addr
  regDivIen : Addr
  regComIrq : Addr
  regDivIrq : Addr
  regError : Addr
  regStatus1 : Addr
  regStatus2 : Addr
  regFifoData : Addr
  regFifoLevel : Addr
  regControl : Addr
  regBitFraming : Addr
  regColl : Addr
  regMode : Addr
  regTxControl : Addr
  regTxAsk : Addr
  regCrcResultH : Addr
  regCrcResultL : Addr
  regTMode : Addr
  regTPrescaler : Addr
  regTReloadH : Addr
  regTReloadL : Addr
  regVersion : Addr
  cmdIdle : Byte
  cmdCalccrc : Byte
  cmdTransmit : Byte
  cmdReceive : Byte
  cmdTransceive : Byte
  cmdMfauthent : Byte
  cmdSoftreset : Byte
  initProgram : List Item
  deriving DecidableEq, Repr

/-- The default record of R7, with the default `INIT_PROGRAM` of R133. PRESUMED (log 6): the spec marks the
addresses, the command codes and the program as general knowledge. -/
def Cfg.default : Cfg where
  pollBudget := 36000
  crcBudget := 255
  reqMode := 0x26
  reqSilentStatus := .noTag
  regCommand := 0x01
  regComIen := 0x02
  regDivIen := 0x03
  regComIrq := 0x04
  regDivIrq := 0x05
  regError := 0x06
  regStatus1 := 0x07
  regStatus2 := 0x08
  regFifoData := 0x09
  regFifoLevel := 0x0A
  regControl := 0x0C
  regBitFraming := 0x0D
  regColl := 0x0E
  regMode := 0x11
  regTxControl := 0x14
  regTxAsk := 0x15
  regCrcResultH := 0x21
  regCrcResultL := 0x22
  regTMode := 0x2A
  regTPrescaler := 0x2B
  regTReloadH := 0x2C
  regTReloadL := 0x2D
  regVersion := 0x37
  cmdIdle := 0x00
  cmdCalccrc := 0x03
  cmdTransmit := 0x04
  cmdReceive := 0x08
  cmdTransceive := 0x0C
  cmdMfauthent := 0x0E
  cmdSoftreset := 0x0F
  initProgram :=
    [.write 0x01 0x0F, .delay 50, .write 0x2A 0x8D, .write 0x2B 0x3E, .write 0x2D 0x1E,
     .write 0x2C 0x00, .write 0x15 0x40, .write 0x11 0x3D, .setBits 0x14 0x03]

/-- Every `REG_*` field (R7: pairwise distinct). -/
def Cfg.registers (c : Cfg) : List Addr :=
  [c.regCommand, c.regComIen, c.regDivIen, c.regComIrq, c.regDivIrq, c.regError, c.regStatus1,
   c.regStatus2, c.regFifoData, c.regFifoLevel, c.regControl, c.regBitFraming, c.regColl, c.regMode,
   c.regTxControl, c.regTxAsk, c.regCrcResultH, c.regCrcResultL, c.regTMode, c.regTPrescaler,
   c.regTReloadH, c.regTReloadL, c.regVersion]

/-- FREE VALUE (R43, U16; log 2): the byte the environment answers to exchange number `n` when no answer is scripted. -/
opaque Config.envByte : Nat → Byte

/-- FREE VALUE (R43, U3; log 2): the fault flag of exchange number `n` when no answer is scripted. -/
opaque Config.envFault : Nat → Bool

end Sys2Proof
end

