-- ==== Sys2Proof/WellFormed.lean ====
section
/-! DEFINITION. What a model refuses before it runs (R7, R80 (c), U1, U8, D35): a `Cfg` with two equal register
addresses, with a request mode other than 0x26 and 0x52, or with a silent status other than NoTag and Timeout.
Every term of `Instr` is well-formed: operands are bounded by their types (R63, R91, U13), the command codes are a
closed enumeration (R80). -/

namespace Sys2Proof

/-- No address occurs twice. -/
def distinct : List Addr → Bool
  | [] => true
  | a :: l => !l.contains a && distinct l

/-- R7: "All `REG_*` values in one `Cfg` must be pairwise distinct." -/
def Cfg.registersDistinct (c : Cfg) : Bool := distinct c.registers

/-- R68, R80 (c), U8: the request mode is one of the two the source names. -/
def Cfg.reqModeNamed (c : Cfg) : Bool := c.reqMode == 0x26 || c.reqMode == 0x52

/-- R119, U4: REQ_SILENT_STATUS ranges over NoTag and Timeout. -/
def Cfg.silentStatusNamed (c : Cfg) : Bool := c.reqSilentStatus == .noTag || c.reqSilentStatus == .timeout

/-- A configuration the model runs under (R7, R80, D35). -/
def Cfg.wf (c : Cfg) : Bool := c.registersDistinct && c.reqModeNamed && c.silentStatusNamed

end Sys2Proof
end

