-- ==== Sys2Proof/Decode.lean ====
section
/-! DEFINITION. The five encoding classes (R59 to R80): what a word of each class says, and the words of each
instruction. Classes W, K and F are bytes on the wire, in the FIFO or in REG_COMMAND; class H is the two-bit OPC of the
host port and class S the four-bit OPR, each carried here in one byte with zero bits above. Operands that the table gives
no bits (the request mode, TOCARD's command, the mask pair) follow in bytes of their own: DESIGN CHOICE (log 11). -/

namespace Sys2Proof

/-- The encoding classes of R59. -/
inductive EncClass where
  /-- W, wire transaction (R60 to R64) -/
  | wire
  /-- K, chip command byte (R65, R66) -/
  | chipCmd
  /-- F, card frame (R67 to R76) -/
  | frame
  /-- H, host operation code (R77, R78) -/
  | host
  /-- S, sequencer operation code (R79) -/
  | seq
  deriving DecidableEq, Repr

/-- Why bytes are no instruction of a class (R80). -/
inductive Reject where
  /-- the bytes end before the word does -/
  | truncated
  /-- class W: bit 0 of the address byte is 1 (R80 (a)) -/
  | addressBitZero
  /-- class W: the second byte of a read is not the dummy 0x00 (R62) -/
  | dummyNotZero
  /-- class K: none of the seven `CMD_*` values (R80 (b)) -/
  | unknownCommand
  /-- class F: none of the formats F1, F2, F9, F4 (R67 to R71) -/
  | unknownFrame
  /-- class H: the code does not fit two bits (R77) -/
  | hostCodeTooWide
  /-- class S: codes 13 to 15 are unreachable, wider ones do not exist (R80 (e)) -/
  | unreachableCode
  /-- class S: an operand byte outside its field (an address above 63, a command index above 6) -/
  | operandOutOfRange
  deriving DecidableEq, Repr

/-- The outcome of decoding: an instruction with the bytes left over, or a rejection by name. -/
inductive Decoded where
  | ok (i : Instr) (rest : List Byte)
  | reject (r : Reject)
  deriving DecidableEq, Repr

/-- The instruction of a decoding, if there is one. -/
def Decoded.instr? : Decoded → Option Instr
  | .ok i _ => some i
  | .reject _ => none

/-- Address byte of a write: RW = 0, a5..a0 in bits 6..1, bit 0 = 0 (R60). -/
def wrAddrByte (a : Addr) : Byte := (a.setWidth 8 <<< 1) &&& 0x7E

/-- Address byte of a read: RW = 1, a5..a0 in bits 6..1, bit 0 = 0 (R60). -/
def rdAddrByte (a : Addr) : Byte := (a.setWidth 8 <<< 1) ||| 0x80

/-- The register address in bits 6..1 of an address byte (R60). -/
def addrOfByte (b : Byte) : Addr := b.extractLsb' 1 6

/-- The byte written to REG_COMMAND for a chip command (R65). -/
def cmdCode (c : Cfg) : ChipCmd → Byte
  | .idle => c.cmdIdle
  | .calcCrc => c.cmdCalccrc
  | .transmit => c.cmdTransmit
  | .receive => c.cmdReceive
  | .transceive => c.cmdTransceive
  | .mfAuthent => c.cmdMfauthent
  | .softReset => c.cmdSoftreset

/-- The class K instruction that issues a chip command (R65). -/
def cmdInstr : ChipCmd → Instr
  | .idle => .cmdIdle
  | .calcCrc => .cmdCalccrc
  | .transmit => .cmdTransmit
  | .receive => .cmdReceive
  | .transceive => .cmdTransceive
  | .mfAuthent => .cmdMfauthent
  | .softReset => .cmdSoftreset

/-- The seven commands in the order of R65's table. -/
def allCmds : List ChipCmd :=
  [.idle, .calcCrc, .transmit, .receive, .transceive, .mfAuthent, .softReset]

/-- The seven `CMD_*` codes are different bytes: without it a class K byte can mean two commands. -/
def Cfg.commandsDistinct (c : Cfg) : Bool := decide ((allCmds.map (cmdCode c)).Nodup)

/-- TOCARD's operand byte: the command's place in R65's table (DESIGN CHOICE, log 11). -/
def cmdIndex : ChipCmd → Byte
  | .idle => 0
  | .calcCrc => 1
  | .transmit => 2
  | .receive => 3
  | .transceive => 4
  | .mfAuthent => 5
  | .softReset => 6

/-- The five bytes of an identifier, UID[0] first (R45). -/
def CardId.bytes (u : CardId) : List Byte := [u.b0, u.b1, u.b2, u.b3, u.b4]

/-- Class W (R60 to R62): two bytes, first byte first. -/
def decodeWire : List Byte → Decoded
  | b :: d :: rest =>
    if b.getLsbD 0 then .reject .addressBitZero
    else if b.getLsbD 7 then
      if d = 0 then .ok (.rdreg (addrOfByte b)) rest else .reject .dummyNotZero
    else .ok (.wrreg (addrOfByte b) d) rest
  | _ => .reject .truncated

/-- The first command of a list whose code is `b`. -/
def findCmd (c : Cfg) (b : Byte) : List ChipCmd → Option ChipCmd
  | [] => none
  | k :: ks => if cmdCode c k = b then some k else findCmd c b ks

/-- Class K (R65): one byte, one of the seven `CMD_*` values. -/
def decodeChipCmd (c : Cfg) : List Byte → Decoded
  | b :: rest =>
    match findCmd c b allCmds with
    | some k => .ok (cmdInstr k) rest
    | none => .reject .unknownCommand
  | [] => .reject .truncated

/-- The rest of a frame that begins 0x93 (R69, R70). -/
def decodeSelectFrame : List Byte → Decoded
  | [] => .reject .truncated
  | n :: r =>
    if n = 0x20 then .ok .frameAnticoll r
    else if n = 0x70 then
      match r with
      | u0 :: u1 :: u2 :: u3 :: k :: lo :: hi :: rest => .ok (.frameSelect ⟨u0, u1, u2, u3, k⟩ lo hi) rest
      | _ => .reject .truncated
    else .reject .unknownFrame

/-- The rest of a frame that begins 0x50 (R71). -/
def decodeHaltFrame : List Byte → Decoded
  | [] => .reject .truncated
  | z :: r =>
    if z = 0 then
      match r with
      | lo :: hi :: rest => .ok (.frameHalt lo hi) rest
      | _ => .reject .truncated
    else .reject .unknownFrame

/-- Class F (R67 to R71): the bytes placed in the FIFO. -/
def decodeFrame : List Byte → Decoded
  | [] => .reject .truncated
  | b :: r =>
    if b = 0x26 then .ok .frameReqa r
    else if b = 0x52 then .ok .frameReqall r
    else if b = 0x93 then decodeSelectFrame r
    else if b = 0x50 then decodeHaltFrame r
    else .reject .unknownFrame

/-- Class H: the operation of a two-bit OPC (R77). -/
def hostInstr (opc : BitVec 2) : Instr :=
  if opc = 0 then .init else if opc = 1 then .version else if opc = 2 then .checkcard else .compareids

/-- Class H in a byte (R77). -/
def decodeHost : List Byte → Decoded
  | b :: rest => if b.toNat < 4 then .ok (hostInstr (b.setWidth 2)) rest else .reject .hostCodeTooWide
  | [] => .reject .truncated

/-- The operand bytes of TOCARD: a command index. -/
def decodeCmdOperand : List Byte → Decoded
  | n :: rest =>
    match allCmds[n.toNat]? with
    | some k => .ok (.tocard k) rest
    | none => .reject .operandOutOfRange
  | [] => .reject .truncated

/-- The operand bytes of SETBM and CLRBM: an address below 64 and a mask. -/
def decodeMaskOperands (f : Addr → Byte → Instr) : List Byte → Decoded
  | a :: m :: rest => if a.toNat < 64 then .ok (f (a.setWidth 6) m) rest else .reject .operandOutOfRange
  | _ => .reject .truncated

/-- The operand byte of REQUEST: the request mode. -/
def decodeModeOperand : List Byte → Decoded
  | m :: rest => .ok (.request m) rest
  | [] => .reject .truncated

/-- Class S (R79): the OPR code in one byte, then the operand bytes. -/
def decodeSeq : List Byte → Decoded
  | [] => .reject .truncated
  | b :: r =>
    if b = 0 then .ok .idle r
    else if b = 1 then .ok .init r
    else if b = 2 then .ok .version r
    else if b = 3 then .ok .checkcard r
    else if b = 4 then .ok .compareids r
    else if b = 5 then decodeModeOperand r
    else if b = 6 then .ok .anticoll r
    else if b = 7 then .ok .select r
    else if b = 8 then .ok .halt r
    else if b = 9 then decodeCmdOperand r
    else if b = 10 then .ok .calccrc r
    else if b = 11 then decodeMaskOperands .setbm r
    else if b = 12 then decodeMaskOperands .clrbm r
    else .reject .unreachableCode

/-- Decoding, total on any bytes of a class. -/
def decode (c : Cfg) : EncClass → List Byte → Decoded
  | .wire => decodeWire
  | .chipCmd => decodeChipCmd c
  | .frame => decodeFrame
  | .host => decodeHost
  | .seq => decodeSeq

/-- The class and the bytes of an instruction (R59 to R79). -/
def encode (c : Cfg) : Instr → EncClass × List Byte
  | .wrreg a d => (.wire, [wrAddrByte a, d])
  | .rdreg a => (.wire, [rdAddrByte a, 0x00])
  | .cmdIdle => (.chipCmd, [c.cmdIdle])
  | .cmdCalccrc => (.chipCmd, [c.cmdCalccrc])
  | .cmdTransmit => (.chipCmd, [c.cmdTransmit])
  | .cmdReceive => (.chipCmd, [c.cmdReceive])
  | .cmdTransceive => (.chipCmd, [c.cmdTransceive])
  | .cmdMfauthent => (.chipCmd, [c.cmdMfauthent])
  | .cmdSoftreset => (.chipCmd, [c.cmdSoftreset])
  | .frameReqa => (.frame, [0x26])
  | .frameReqall => (.frame, [0x52])
  | .frameAnticoll => (.frame, [0x93, 0x20])
  | .frameSelect u lo hi => (.frame, [0x93, 0x70, u.b0, u.b1, u.b2, u.b3, u.b4, lo, hi])
  | .frameHalt lo hi => (.frame, [0x50, 0x00, lo, hi])
  | .init => (.host, [0])
  | .version => (.host, [1])
  | .checkcard => (.host, [2])
  | .compareids => (.host, [3])
  | .request m => (.seq, [5, m])
  | .anticoll => (.seq, [6])
  | .select => (.seq, [7])
  | .halt => (.seq, [8])
  | .tocard k => (.seq, [9, cmdIndex k])
  | .calccrc => (.seq, [10])
  | .setbm a m => (.seq, [11, a.setWidth 8, m])
  | .clrbm a m => (.seq, [12, a.setWidth 8, m])
  | .idle => (.seq, [0])

/-- The low `8 * n` bits of `w` as `n` bytes, most significant first: the order the opcode table writes a row's bits in. -/
def bytesOfWord : Nat → Nat → List Byte
  | 0, _ => []
  | n + 1, w => BitVec.ofNat 8 (w / 256 ^ n) :: bytesOfWord n w

/-- The first class of a list in which the bytes are an instruction. -/
def decodeFirst (c : Cfg) (bs : List Byte) : List EncClass → Option Instr
  | [] => none
  | k :: ks =>
    match (decode c k bs).instr? with
    | some i => some i
    | none => decodeFirst c bs ks

/-- The classes a table row of `nbits` bits can belong to, in the order they are tried. A byte can be a word of class F,
K, H and S at once (R59: the class is given by where the byte stands); the order is a DESIGN CHOICE (log 11). -/
def classesOfWidth (nbits : Nat) : List EncClass :=
  if nbits ≤ 2 then [.host]
  else if nbits ≤ 4 then [.seq]
  else if nbits ≤ 8 then [.frame, .chipCmd, .host, .seq]
  else if nbits ≤ 16 then [.wire, .frame]
  else [.frame]

/-- What the decoder reads, under a configuration (R7: the `CMD_*` codes are its fields), from a word of `nbits` bits
numbered as the opcode table numbers them, with operand bytes of zeros after it. -/
def decodeWordOf (c : Cfg) (nbits w : Nat) : Option Instr :=
  let n := (nbits + 7) / 8
  decodeFirst c (bytesOfWord n w ++ List.replicate (9 - n) 0) (classesOfWidth nbits)

/-- The same under the record whose codes the opcode table prints: its class K rows hold the default codes (R65). Nothing in
the machine uses it; `withFetchWord` decodes under the machine's own record (log 6, log 11). -/
def decodeTableWord (nbits w : Nat) : Option Instr := decodeWordOf Cfg.default nbits w

end Sys2Proof
end

