-- ==== Sys2Proof/Machine/State.lean ====
section
/-! DEFINITION. The state as plain data: every register of R13, the sequencer (OPR, PH, RET) of R27, the transport as the
engine meets it with the event history of R58, the configuration of R7, and the moves of the host (R131). -/

namespace Sys2Proof.Machine

/-- Who raises it: the sequencer, on an Xchg line with SEL = 0. R83 calls such an exchange not legal and gives it no
effect. Safe: the machine stops, and no state that meets `Machine.invariant` reaches it (log 15). -/
inductive Fault where
  | xchgUnselected
  deriving DecidableEq, Repr

/-- Who refuses: `notModelled` an arm of `exec` that has no meaning yet (there is none); `badConfig` the step, on a
configuration that R7, R80 (c), U1, U8 and D35 say a model refuses. Both safe: the machine stops. -/
inductive Refusal where
  | notModelled (mnemonic : String)
  | badConfig
  deriving DecidableEq, Repr

/-- A transport event (R9, R10). A fault flag is no part of the observed event (vector Z5; log 17). -/
inductive Event where
  | selAssert
  | xchg (t r : Byte)
  | selRelease
  | delay (ms : BitVec 16)
  deriving DecidableEq, Repr

/-- The environment's answer to an exchange: a byte and a fault flag (R43). -/
structure Answer where
  byte : Byte
  fault : Bool
  deriving DecidableEq, Repr

/-- The transport side of the engine: all that an exchange can touch. `sel` and `terr` are the registers SEL (R28) and
TERR (R24); `rdv` is the variable v of ReadReg (R85, log 8); `trace` is the event history, oldest first (R58);
`answers` and `xcount` stand for the environment (log 2). -/
structure Bus where
  sel : Bool
  terr : Bool
  rdv : Byte
  trace : List Event
  answers : List Answer
  xcount : Nat
  deriving DecidableEq, Repr

/-- The register OPR (R79); codes 13 to 15 are unreachable and have no constructor (R80 (e)). -/
inductive Opr where
  | idle | init | version | checkcard | compareids | request | anticoll | select | halt | tocard | calccrc | setbm | clrbm
  deriving DecidableEq, Repr

/-- The two poll loops: TOCARD step 5 (R97) and CALCCRC's (R113). -/
inductive PollKind where
  | irq | crc
  deriving DecidableEq, Repr

/-- The named chip actions of R93. -/
inductive MicroOp where
  | writeIrqEnable | chipIdle | clearCollFlag | clearIrqs | flushFifo | startSend | stopSend | clearCrcIrq
  deriving DecidableEq, Repr

/-- The register assignments of the pseudocode, one constructor per line that makes no transport event; what each writes
is `Machine.assign`. -/
inductive Act where
  | masks (cmd : ChipCmd)
  | clearRx
  | idxZero
  | idxNext
  | pollInit
  | pollTest (k : PollKind)
  | errv
  | judge
  | collision
  | lvl
  | lastb
  | lvlFloor
  | rxlen
  | lvlCap
  | rxPut
  | tmp
  | crcLo
  | crcHi
  | statusIs (v : Status)
  | tx (bs : List Byte) (len : Fin 17)
  | txSelect
  | txCrc (at_ : Nat) (len : Fin 17)
  | requestLength
  | requestSilent
  | anticollCheck
  | selectCheck
  | clearCard
  | keepStatus
  | publishStatus
  | version
  | clearTerr
  | compare
  deriving DecidableEq, Repr

/-- The conditions on which an operation returns early (R99, R100, R110, R124). -/
inductive Cond where
  | errorBits | noHit | timerOnly | notOk
  deriving DecidableEq, Repr

/-- A line of pseudocode still to run, or one transport event of a line (R27 (a), log 10). -/
inductive Line where
  | selAssert
  | xchg (t : Byte) (keep : Bool)
  | selRelease
  | delay (ms : BitVec 16)
  | act (a : Act)
  | instr (i : Instr)
  | item (it : Item)
  | micro (m : MicroOp)
  | writeTmpOr (a : Addr) (m : Byte)
  | writeTmpAndNot (a : Addr) (m : Byte)
  | loadLoop
  | pollLoop (k : PollKind)
  | drainIfClean
  | drainLoop
  | callIfOk (i : Instr)
  | returnIf (c : Cond) (v : Option Status)
  deriving DecidableEq, Repr

/-- A caller's position on RET: its OPR and the lines it has left (R27 (b)). -/
structure Frame where
  opr : Opr
  lines : List Line
  deriving DecidableEq, Repr

/-- The sequencer: BUSY (R26), OPR, PH as the lines still to run, RET (R27; log 10). -/
structure Sequencer where
  busy : Bool
  opr : Opr
  ph : List Line
  ret : List Frame
  deriving DecidableEq, Repr

/-- A move that is due: a host event (R131) or one move of the engine. -/
inductive Move where
  | start (opc : BitVec 2) (ida idb : CardId)
  | reset
  | engine
  deriving DecidableEq, Repr

/-- The machine. The fields are the registers of R13 under their own names (`cardType` is TYPE, `crcLo` and `crcHi` are
CRC[0] and CRC[1]); SEL and TERR are in `bus`, BUSY, OPR, PH and RET in `seq`; `st` and `ckst` are the pseudocode's
Status variables (log 8); `cfg` is the record of R7 and `moves` the moves that are due (log 4, log 6). -/
structure State where
  cfg : Cfg
  txbuf : Vector Byte 16
  txlen : Fin 17
  rxbuf : Vector Byte 16
  rxlen : BitVec 16
  lvl : BitVec 8
  lastb : BitVec 3
  en : Byte
  wait : Byte
  irqv : Byte
  errv : Byte
  hit : Bool
  cnt : BitVec 16
  idx : BitVec 5
  tmp : Byte
  crcLo : Byte
  crcHi : Byte
  uid : CardId
  cardType : Byte
  status : Status
  ver : Byte
  ida : CardId
  idb : CardId
  opc : BitVec 2
  st : Status
  ckst : Status
  bus : Bus
  seq : Sequencer
  moves : List Move
  deriving DecidableEq, Repr

/-- The sequencer when no operation runs (R27 (d), R40). -/
abbrev Sequencer.idle : Sequencer := { busy := false, opr := .idle, ph := [], ret := [] }

/-- Right after reset under a given configuration: the reset column of R13 (R40, R163); the model's own fields as log 2,
log 3, log 4 and log 8 say. -/
def State.resetWith (c : Cfg) : State where
  cfg := c
  txbuf := Vector.replicate 16 0
  txlen := 0
  rxbuf := Vector.replicate 16 0
  rxlen := 0
  lvl := 0
  lastb := 0
  en := 0
  wait := 0
  irqv := 0
  errv := 0
  hit := false
  cnt := 0
  idx := 0
  tmp := 0
  crcLo := 0
  crcHi := 0
  uid := CardId.zero
  cardType := 0
  status := .ok
  ver := 0
  ida := CardId.zero
  idb := CardId.zero
  opc := 0
  st := .ok
  ckst := .ok
  bus := { sel := false, terr := false, rdv := 0, trace := [], answers := [], xcount := 0 }
  seq := Sequencer.idle
  moves := []

/-- The machine right after reset, under the default configuration (R40; log 6). -/
def State.reset : State := State.resetWith Cfg.default

end Sys2Proof.Machine
end

