-- ==== Sys2Proof/Machine/Flags.lean ====
section
/-! DEFINITION. Every test the engine makes on a byte and every value it computes: mask pairs (R66), poll conditions
(R97, R113), the Status tests of TOCARD (R99 to R102), the response length (R73, R103), the UID checksum (R75), Status
and OPR codes (R79, R143). There are no arithmetic condition codes (R25). -/

namespace Sys2Proof.Machine

/-- The enable mask of a command (R66). -/
def enableMask : ChipCmd → Byte
  | .mfAuthent => 0x12
  | .transceive => 0x77
  | _ => 0x00

/-- The wait mask of a command (R66). -/
def waitMask : ChipCmd → Byte
  | .mfAuthent => 0x10
  | .transceive => 0x30
  | _ => 0x00

/-- A byte has a bit of a mask set. -/
def anyBit (b m : Byte) : Bool := b &&& m != 0

/-- The polled byte ends the loop: for TOCARD the timer bit 0x01 or a bit of WAIT (R97), for CALCCRC bit 0x04 alone (R113). -/
def terminates (k : PollKind) (wait v : Byte) : Bool :=
  match k with
  | .irq => anyBit v 0x01 || anyBit v wait
  | .crc => anyBit v 0x04

/-- The timer bit without a wait bit (R100). -/
def timerWithoutWait (wait v : Byte) : Bool := anyBit v 0x01 && !anyBit v wait

/-- The response length in bits from the level byte (zero already replaced) and the last-bits count (R73, R103). -/
def responseBits (lvl : BitVec 8) (lastb : BitVec 3) : BitVec 16 :=
  if lastb != 0 then (lvl.setWidth 16 - 1) * 8 + lastb.setWidth 16 else lvl.setWidth 16 * 8

/-- A level of zero is treated as one (R103). -/
def levelFloor (lvl : BitVec 8) : BitVec 8 := if lvl = 0 then 1 else lvl

/-- A level above sixteen is cut to sixteen (R103). -/
def levelCap (lvl : BitVec 8) : BitVec 8 := if 16 < lvl then 16 else lvl

/-- The XOR of the four data bytes (R75). -/
def checksum (u : CardId) : Byte := u.b0 ^^^ u.b1 ^^^ u.b2 ^^^ u.b3

/-- The checksum byte of an identifier is the XOR of its data bytes (R75, R121). -/
def checksumOk (u : CardId) : Bool := checksum u == u.b4

/-- Step 9 of TOCARD: Ok when no bit of 0x1B is set, else Error (R101, R102). -/
def verdict (errv : Byte) : Status := if anyBit errv 0x1B then .error else .ok

/-- The last test of step 10: the collision bit gives Error whatever was decided before (R102). -/
def afterCollision (errv : Byte) (st : Status) : Status := if anyBit errv 0x08 then .error else st

/-- A request must be answered with exactly sixteen bits (R118). -/
def afterRequestLength (rxlen : BitVec 16) (st : Status) : Status := if st = .ok && rxlen != 16 then .error else st

/-- A Timeout of the engine inside REQUEST becomes REQ_SILENT_STATUS (R118, R119). -/
def afterRequestSilence (silent st : Status) : Status := if st = .timeout then silent else st

/-- COMPAREIDS: Ok when all five bytes agree (R138). -/
def compareIds (a b : CardId) : Status :=
  if a.b0 = b.b0 && a.b1 = b.b1 && a.b2 = b.b2 && a.b3 = b.b3 && a.b4 = b.b4 then .ok else .error

/-- The two-bit code of a Status on the host port (R78, R143). -/
def statusCode : Status → BitVec 2
  | .ok => 0
  | .noTag => 1
  | .error => 2
  | .timeout => 3

/-- The four-bit code of OPR (R79). -/
def oprCode : Opr → BitVec 4
  | .idle => 0
  | .init => 1
  | .version => 2
  | .checkcard => 3
  | .compareids => 4
  | .request => 5
  | .anticoll => 6
  | .select => 7
  | .halt => 8
  | .tocard => 9
  | .calccrc => 10
  | .setbm => 11
  | .clrbm => 12

/-- The OPR value a host operation code starts (R77, R79, R132). -/
def hostOpr (opc : BitVec 2) : Opr :=
  if opc = 0 then .init else if opc = 1 then .version else if opc = 2 then .checkcard else .compareids

/-- The early-return conditions of TOCARD, CALCCRC and SELECT (R99, R100, R110, R124). -/
def Cond.holds (c : Cond) (s : State) : Bool :=
  match c with
  | .errorBits => anyBit s.errv 0x13
  | .noHit => !s.hit
  | .timerOnly => timerWithoutWait s.wait s.irqv
  | .notOk => s.st != .ok

end Sys2Proof.Machine
end

