-- ==== Sys2Proof/Machine/Operands.lean ====
section
/-! DEFINITION. The operand forms: the transfer buffers by index (R14, R16), the frames laid out in TXBUF (R67 to R71),
and every register assignment of the pseudocode (`assign`), which makes no transport event. -/

namespace Sys2Proof.Machine

/-- TXBUF[i]; no rule reads an index at or above TXLEN (R14). -/
def State.txAt (s : State) (i : Nat) : Byte := s.txbuf[i]?.getD 0

/-- RXBUF[i] (R16). -/
def State.rxAt (s : State) (i : Nat) : Byte := s.rxbuf[i]?.getD 0

/-- A buffer with the bytes `bs` stored from index `i` upward; bytes not named keep their value (R14). -/
def putBytes (v : Vector Byte 16) : Nat → List Byte → Vector Byte 16
  | _, [] => v
  | i, b :: bs => putBytes (v.setIfInBounds i b) (i + 1) bs

/-- The five bytes RXBUF[0..4] (R121). -/
def State.rxId (s : State) : CardId := ⟨s.rxAt 0, s.rxAt 1, s.rxAt 2, s.rxAt 3, s.rxAt 4⟩

/-- The first seven bytes of the select frame (R70, R124). -/
def selectHead (u : CardId) : List Byte := 0x93 :: 0x70 :: u.bytes

/-- The bytes TXBUF[0 .. TXLEN-1] that TOCARD and CALCCRC send (R15). -/
def State.txBytes (s : State) : List Byte := s.txbuf.toList.take s.txlen.val

/-- What each assignment line writes; everything else is kept. -/
def assign (a : Act) (s : State) : State :=
  match a with
  -- R66, R94: (EN, WAIT) <- masks(cmd)
  | .masks cmd => { s with en := enableMask cmd, wait := waitMask cmd }
  -- R94: RXBUF[0..15] <- 0x00, RXLEN <- 0
  | .clearRx => { s with rxbuf := Vector.replicate 16 0, rxlen := 0 }
  -- R95, R103: IDX of the FIFO loops (log 9)
  | .idxZero => { s with idx := 0 }
  | .idxNext => { s with idx := s.idx + 1 }
  -- R97: CNT <- 0, IRQV <- 0x00, HIT <- 0
  | .pollInit => { s with cnt := 0, irqv := 0, hit := false }
  -- R97, R113: IRQV takes the byte read, CNT counts it, HIT if it terminates
  | .pollTest k =>
    { s with irqv := s.bus.rdv, cnt := s.cnt + 1, hit := s.hit || terminates k s.wait s.bus.rdv }
  -- R99: ERRV is the one read of the error register
  | .errv => { s with errv := s.bus.rdv }
  -- R101, R102: the provisional Status of steps 9 and 10
  | .judge => { s with st := verdict s.errv }
  -- R102: the last test
  | .collision => { s with st := afterCollision s.errv s.st }
  -- R103: the drain's latches
  | .lvl => { s with lvl := s.bus.rdv }
  | .lastb => { s with lastb := s.bus.rdv.setWidth 3 }
  | .lvlFloor => { s with lvl := levelFloor s.lvl }
  | .rxlen => { s with rxlen := responseBits s.lvl s.lastb }
  | .lvlCap => { s with lvl := levelCap s.lvl }
  | .rxPut => { s with rxbuf := s.rxbuf.setIfInBounds s.idx.toNat s.bus.rdv }
  -- R87, R88: TMP <- ReadReg(a)
  | .tmp => { s with tmp := s.bus.rdv }
  -- R114: low half first
  | .crcLo => { s with crcLo := s.bus.rdv }
  | .crcHi => { s with crcHi := s.bus.rdv }
  | .statusIs v => { s with st := v }
  -- R118, R121, R127: a frame from index 0 and its length
  | .tx bs len => { s with txbuf := putBytes s.txbuf 0 bs, txlen := len }
  -- R124: 93 70 UID[0..4], TXLEN <- 7
  | .txSelect => { s with txbuf := putBytes s.txbuf 0 (selectHead s.uid), txlen := 7 }
  -- R124, R127: the CRC bytes after the frame's head
  | .txCrc i len => { s with txbuf := putBytes s.txbuf i [s.crcLo, s.crcHi], txlen := len }
  -- R118, R119
  | .requestLength => { s with st := afterRequestLength s.rxlen s.st }
  | .requestSilent => { s with st := afterRequestSilence s.cfg.reqSilentStatus s.st }
  -- R121: the checksum decides; UID is written on Ok only
  | .anticollCheck =>
    if s.st = .ok then (if checksumOk s.rxId then { s with uid := s.rxId } else { s with st := .error }) else s
  -- R124: the length decides; TYPE is written on Ok only
  | .selectCheck =>
    if s.st = .ok then (if s.rxlen = 24 then { s with cardType := s.rxAt 0 } else { s with st := .error }) else s
  -- R135: UID and TYPE cleared at the start
  | .clearCard => { s with uid := CardId.zero, cardType := 0 }
  -- R135: CHECKCARD's own st takes the step's Status
  | .keepStatus => { s with ckst := s.st }
  -- R135: STATUS <- st, last
  | .publishStatus => { s with status := s.ckst }
  -- R134
  | .version => { s with ver := s.bus.rdv }
  -- R133
  | .clearTerr => { s with bus := { s.bus with terr := false } }
  -- R138
  | .compare => { s with status := compareIds s.ida s.idb }

end Sys2Proof.Machine
end

