-- ==== Sys2Proof/Machine/Ops.lean ====
section
/-! DEFINITION. The named operations: transport events (R83 to R86), register reads and writes (R84, R85),
read-modify-write (R87, R88), the table of micro-operations (R93), the FIFO load, poll and drain loops (R95, R97, R103,
R113), and the host events start, end of operation and reset (R132, R163). The engine takes no exception and returns from
none (R144, R152, R154): a failure is a Status handed to the caller. -/

namespace Sys2Proof.Machine

/-- The environment's answer to the next exchange: the scripted one, or the free values once the script is used up
(R43; log 2). -/
def Bus.answer (b : Bus) : Answer :=
  match b.answers with
  | a :: _ => a
  | [] => ⟨Config.envByte b.xcount, Config.envFault b.xcount⟩

/-- SelAssert, SEL <- 1 (R84). -/
def Bus.assertSel (b : Bus) : Bus := { b with sel := true, trace := b.trace ++ [.selAssert] }

/-- SelRelease, SEL <- 0 (R84). -/
def Bus.releaseSel (b : Bus) : Bus := { b with sel := false, trace := b.trace ++ [.selRelease] }

/-- Xchg(t): one byte out, one byte in; a fault flag sets TERR and does nothing else (R83). The byte is kept in `rdv` when
`keep` is set, dropped otherwise (R64). -/
def Bus.xchg (t : Byte) (keep : Bool) (b : Bus) : Bus :=
  { b with
    terr := b.terr || b.answer.fault
    rdv := if keep then b.answer.byte else b.rdv
    trace := b.trace ++ [.xchg t b.answer.byte]
    answers := b.answers.tail
    xcount := b.xcount + 1 }

/-- The four events of WriteReg(a, v) (R84). -/
def Bus.write (a : Addr) (v : Byte) (b : Bus) : Bus :=
  ((b.assertSel.xchg (wrAddrByte a) false).xchg v false).releaseSel

/-- The four events of ReadReg(a), its result left in `rdv` (R85). -/
def Bus.read (a : Addr) (b : Bus) : Bus :=
  ((b.assertSel.xchg (rdAddrByte a) false).xchg 0x00 true).releaseSel

/-- WriteReg(a, v) (R84). -/
def writeReg (a : Addr) (v : Byte) (s : State) : State := { s with bus := s.bus.write a v }

/-- ReadReg(a); the result is in `bus.rdv` (R85). -/
def readReg (a : Addr) (s : State) : State := { s with bus := s.bus.read a }

/-- Delay(ms): the collaborator is called, nothing else happens (R9, U19). -/
def delayMs (ms : BitVec 16) (s : State) : State := { s with bus := { s.bus with trace := s.bus.trace ++ [.delay ms] } }

/-- SetBitMask(a, m) (R87). -/
def setBitMask (a : Addr) (m : Byte) (s : State) : State :=
  let s := assign .tmp (readReg a s)
  writeReg a (s.tmp ||| m) s

/-- ClearBitMask(a, m) (R88). -/
def clearBitMask (a : Addr) (m : Byte) (s : State) : State :=
  let s := assign .tmp (readReg a s)
  writeReg a (s.tmp &&& ~~~m) s

/-- One access of the listing notation: W, SET, CLR or DELAY (R82, R133). -/
def runItem (it : Item) (s : State) : State :=
  match it with
  | .write a v => writeReg a v s
  | .setBits a m => setBitMask a m s
  | .clearBits a m => clearBitMask a m s
  | .delay ms => delayMs ms s

/-- A list of accesses, in order (R133). -/
def runItems : List Item → State → State
  | [], s => s
  | it :: l, s => runItems l (runItem it s)

/-- The table of R93: each named effect and its one expansion. -/
def MicroOp.expansion (m : MicroOp) (s : State) : Item :=
  match m with
  | .writeIrqEnable => .write s.cfg.regComIen (s.en ||| 0x80)
  | .chipIdle => .write s.cfg.regCommand s.cfg.cmdIdle
  | .clearCollFlag => .clearBits s.cfg.regColl 0x80
  | .clearIrqs => .write s.cfg.regComIrq 0x7F
  | .flushFifo => .write s.cfg.regFifoLevel 0x80
  | .startSend => .setBits s.cfg.regBitFraming 0x80
  | .stopSend => .clearBits s.cfg.regBitFraming 0x80
  | .clearCrcIrq => .clearBits s.cfg.regDivIrq 0x04

/-- A micro-operation (R93). -/
def runMicro (m : MicroOp) (s : State) : State := runItem (m.expansion s) s

/-- Writing a command's code to REG_COMMAND (R65). -/
def issueCommand (k : ChipCmd) (s : State) : State := writeReg s.cfg.regCommand (cmdCode s.cfg k) s

/-- `n` writes of TXBUF[IDX] to the FIFO (R95, R112). -/
def loadFifo : Nat → State → State
  | 0, s => s
  | n + 1, s => loadFifo n (assign .idxNext (writeReg s.cfg.regFifoData (s.txAt s.idx.toNat) s))

/-- The FIFO load: TXBUF[0 .. TXLEN-1] in index order (R95, R112). -/
def loadFrame (s : State) : State := loadFifo s.txlen.val (assign .idxZero s)

/-- The register a poll loop reads (R97, R113). -/
def PollKind.register (k : PollKind) (c : Cfg) : Addr :=
  match k with
  | .irq => c.regComIrq
  | .crc => c.regDivIrq

/-- The budget of a poll loop (R97, R113, R173). -/
def PollKind.budget (k : PollKind) (c : Cfg) : BitVec 16 :=
  match k with
  | .irq => c.pollBudget
  | .crc => c.crcBudget

/-- One poll read and its test (R97, R113). -/
def pollRead (k : PollKind) (s : State) : State := assign (.pollTest k) (readReg (k.register s.cfg) s)

/-- At most `n` poll reads, stopping at the first that terminates (R97, R113). -/
def pollFor (k : PollKind) : Nat → State → State
  | 0, s => s
  | n + 1, s => if (pollRead k s).hit then pollRead k s else pollFor k n (pollRead k s)

/-- The poll loop from its initialisation on (R97, R113). -/
def poll (k : PollKind) (s : State) : State := pollFor k (k.budget s.cfg).toNat (assign .pollInit s)

/-- `n` reads of the FIFO into RXBUF[IDX] (R103). -/
def drainFifo : Nat → State → State
  | 0, s => s
  | n + 1, s => drainFifo n (assign .idxNext (assign .rxPut (readReg s.cfg.regFifoData s)))

/-- The drain up to its data loop: level, control, length before the clamp (R103). -/
def drainHead (s : State) : State :=
  let s := assign .lvl (readReg s.cfg.regFifoLevel s)
  let s := assign .lastb (readReg s.cfg.regControl s)
  assign .idxZero (assign .lvlCap (assign .rxlen (assign .lvlFloor s)))

/-- Drain() (R103). -/
def drain (s : State) : State :=
  let s := drainHead s
  drainFifo s.lvl.toNat s

/-- The start event (R132): accepted when BUSY = 0, otherwise ignored. -/
def startEvent (opc : BitVec 2) (ida idb : CardId) (s : State) : State :=
  if s.seq.busy then s
  else
    { s with
      opc := opc, ida := ida, idb := idb
      seq := { busy := true, opr := hostOpr opc, ph := [.instr (hostInstr opc)], ret := [] } }

/-- The end of an operation: OPR <- IDLE, RET empty and BUSY <- 0 in one step (R27 (d), R132). -/
def endOperation (s : State) : State := { s with seq := Sequencer.idle }

/-- The reset event (R163, R164): every register to its reset value; one SelRelease if the select line was asserted. The
configuration, the event history, the environment and the moves still due are no registers of the engine (log 3). -/
def resetEvent (s : State) : State :=
  { State.resetWith s.cfg with
    bus :=
      { sel := false, terr := false, rdv := 0
        trace := s.bus.trace ++ (if s.bus.sel then [.selRelease] else [])
        answers := s.bus.answers, xcount := s.bus.xcount }
    moves := s.moves }

end Sys2Proof.Machine
end

