-- ==== Sys2Proof/Machine/Access.lean ====
section
/-! DEFINITION. Register access: WRREG, RDREG, SETBM, CLRBM (40_register_access.md). -/

namespace Sys2Proof.Machine

/-- What a meaning answers: the engine has no trap and no operand it cannot execute (R80 (f), R144). -/
abbrev Result := Host.Outcome State Fault Refusal

/-- WRREG a, d (R84). -/
def execWrreg (a : Addr) (d : Byte) (s : State) : Result := .next (writeReg a d s)

/-- RDREG a (R85); the result is in `bus.rdv`. -/
def execRdreg (a : Addr) (s : State) : Result := .next (readReg a s)

/-- SETBM a, m (R87). -/
def execSetbm (a : Addr) (m : Byte) (s : State) : Result := .next (setBitMask a m s)

/-- CLRBM a, m (R88). -/
def execClrbm (a : Addr) (m : Byte) (s : State) : Result := .next (clearBitMask a m s)

end Sys2Proof.Machine
end

