-- ==== Sys2Proof/Machine/Commands.lean ====
section
/-! DEFINITION. Chip commands, class K (R65): each is selected by writing its `Cfg` code whole to REG_COMMAND. The mask
pair a command selects is `enableMask`, `waitMask` (R66); TOCARD latches it, the write does not (R115; log 12). -/

namespace Sys2Proof.Machine

/-- CMD.IDLE (R65). -/
def execCmdIdle (s : State) : Result := .next (issueCommand .idle s)

/-- CMD.CALCCRC (R65). -/
def execCmdCalccrc (s : State) : Result := .next (issueCommand .calcCrc s)

/-- CMD.TRANSMIT (R65). -/
def execCmdTransmit (s : State) : Result := .next (issueCommand .transmit s)

/-- CMD.RECEIVE (R65). -/
def execCmdReceive (s : State) : Result := .next (issueCommand .receive s)

/-- CMD.TRANSCEIVE (R65). -/
def execCmdTransceive (s : State) : Result := .next (issueCommand .transceive s)

/-- CMD.MFAUTHENT (R65). -/
def execCmdMfauthent (s : State) : Result := .next (issueCommand .mfAuthent s)

/-- CMD.SOFTRESET (R65). -/
def execCmdSoftreset (s : State) : Result := .next (issueCommand .softReset s)

end Sys2Proof.Machine
end

