-- ==== Sys2Proof/Machine/Engine.lean ====
section
/-! DEFINITION. The command engine: TOCARD (41_command_engine.md). Its Status is left in `st`. -/

namespace Sys2Proof.Machine

/-- Steps 1 and 2 (R94): the mask pair, the cleared response, then the five named effects in the source's order. -/
def tocardPrelude (cmd : ChipCmd) (s : State) : State :=
  let s := assign .clearRx (assign (.masks cmd) s)
  let s := runMicro .chipIdle (runMicro .writeIrqEnable s)
  let s := runMicro .clearIrqs (runMicro .clearCollFlag s)
  runMicro .flushFifo s

/-- Steps 3 and 4 (R95, R96): load the FIFO, issue the command, start sending if it is Transceive. -/
def tocardIssue (cmd : ChipCmd) (s : State) : State :=
  let s := issueCommand cmd (loadFrame s)
  if cmd = .transceive then runMicro .startSend s else s

/-- Step 6 and the read of step 7 (R98, R99). -/
def tocardStop (s : State) : State :=
  let s := runMicro .stopSend s
  assign .errv (readReg s.cfg.regError s)

/-- Steps 9 and 10 (R101, R102). -/
def tocardConclude (cmd : ChipCmd) (s : State) : State :=
  let s := assign .judge s
  let s := if cmd = .transceive && !anyBit s.errv 0x1B then drain s else s
  assign .collision s

/-- Steps 7 to 10 on the latched bytes (R99 to R102). -/
def tocardDecide (cmd : ChipCmd) (s : State) : State :=
  if Cond.errorBits.holds s then assign (.statusIs .error) s
  else if Cond.noHit.holds s then assign (.statusIs .timeout) s
  else if Cond.timerOnly.holds s then assign (.statusIs .timeout) s
  else tocardConclude cmd s

/-- TOCARD(cmd) (R92). -/
def tocard (cmd : ChipCmd) (s : State) : State :=
  tocardDecide cmd (tocardStop (poll .irq (tocardIssue cmd (tocardPrelude cmd s))))

/-- TOCARD cmd (R92 to R108). -/
def execTocard (cmd : ChipCmd) (s : State) : Result := .next (tocard cmd s)

end Sys2Proof.Machine
end

