-- ==== Sys2Proof/Machine/Crc.lean ====
section
/-! DEFINITION. The CRC coprocessor wrapper: CALCCRC (42_crc_wrapper.md). Its Status is left in `st`. -/

namespace Sys2Proof.Machine

/-- The prelude, the load and the issue (R111, R112). -/
def calccrcIssue (s : State) : State :=
  let s := runMicro .chipIdle (runMicro .flushFifo (runMicro .clearCrcIrq s))
  issueCommand .calcCrc (loadFrame s)

/-- The two result reads, low half first, and Ok (R114). -/
def calccrcResult (s : State) : State :=
  let s := assign .crcLo (readReg s.cfg.regCrcResultL s)
  let s := assign .crcHi (readReg s.cfg.regCrcResultH s)
  assign (.statusIs .ok) s

/-- CALCCRC() (R110). -/
def calccrc (s : State) : State :=
  let s := poll .crc (calccrcIssue s)
  if Cond.noHit.holds s then assign (.statusIs .timeout) s else calccrcResult s

/-- CALCCRC (R110 to R116). -/
def execCalccrc (s : State) : Result := .next (calccrc s)

end Sys2Proof.Machine
end

