-- ==== Sys2Proof/Machine/Frames.lean ====
section
/-! DEFINITION. Card frames, class F (R67 to R71): the frame's bytes are placed in TXBUF, TXLEN is set, and the frame is
transceived under the bit-framing value its format names; F9 and F4 write none and go out under the value in force
(R124, R128). What is done with the answer is the activation step's (43_activation.md; log 13). -/

namespace Sys2Proof.Machine

/-- Format F1 (R67, R118): framing 0x07, one byte, transceive. -/
def sendRequestFrame (m : Byte) (s : State) : State :=
  let s := runItem (.write s.cfg.regBitFraming 0x07) s
  tocard .transceive (assign (.tx [m] 1) s)

/-- Format F2 (R69, R121): framing 0x00, two bytes, transceive. -/
def sendAnticollFrame (s : State) : State :=
  let s := runItem (.write s.cfg.regBitFraming 0x00) s
  tocard .transceive (assign (.tx [0x93, 0x20] 2) s)

/-- FRAME.REQA (R67, R68). -/
def execFrameReqa (s : State) : Result := .next (sendRequestFrame 0x26 s)

/-- FRAME.REQALL (R67, R68). -/
def execFrameReqall (s : State) : Result := .next (sendRequestFrame 0x52 s)

/-- FRAME.ANTICOLL (R69). -/
def execFrameAnticoll (s : State) : Result := .next (sendAnticollFrame s)

/-- FRAME.SELECT (R70): nine bytes. -/
def execFrameSelect (uid : CardId) (crcLo crcHi : Byte) (s : State) : Result :=
  .next (tocard .transceive (assign (.tx (selectHead uid ++ [crcLo, crcHi]) 9) s))

/-- FRAME.HALT (R71): four bytes. -/
def execFrameHalt (crcLo crcHi : Byte) (s : State) : Result :=
  .next (tocard .transceive (assign (.tx [0x50, 0x00, crcLo, crcHi] 4) s))

end Sys2Proof.Machine
end

