-- ==== Sys2Proof/Machine/Activation.lean ====
section
/-! DEFINITION. Card activation: REQUEST, ANTICOLL, SELECT, HALT (43_activation.md). Each leaves its Status in `st`;
HALT's is discarded by its caller (R127, R154). -/

namespace Sys2Proof.Machine

/-- REQUEST(m) (R118). -/
def request (m : Byte) (s : State) : State :=
  assign .requestSilent (assign .requestLength (sendRequestFrame m s))

/-- ANTICOLL() (R121). -/
def anticoll (s : State) : State := assign .anticollCheck (sendAnticollFrame s)

/-- The part of SELECT that runs once CALCCRC returned Ok (R124). -/
def selectTransceive (s : State) : State :=
  assign .selectCheck (tocard .transceive (assign (.txCrc 7 9) s))

/-- SELECT() (R124). -/
def select (s : State) : State :=
  let s := calccrc (assign .txSelect s)
  if Cond.notOk.holds s then s else selectTransceive s

/-- HALT() (R127). -/
def halt (s : State) : State :=
  let s := calccrc (assign (.tx [0x50, 0x00] 2) s)
  tocard .transceive (assign (.txCrc 2 4) s)

/-- REQUEST m (R118 to R120). -/
def execRequest (m : Byte) (s : State) : Result := .next (request m s)

/-- ANTICOLL (R121 to R123). -/
def execAnticoll (s : State) : Result := .next (anticoll s)

/-- SELECT (R124 to R126). -/
def execSelect (s : State) : Result := .next (select s)

/-- HALT (R127, R128). -/
def execHalt (s : State) : Result := .next (halt s)

end Sys2Proof.Machine
end

