-- ==== Sys2Proof/Machine/HostOps.lean ====
section
/-! DEFINITION. Host operations INIT, VERSION, CHECKCARD, COMPAREIDS (44_host_operations.md) and IDLE, the engine with no
operation running (R27, R162). -/

namespace Sys2Proof.Machine

/-- One activation step inside CHECKCARD: it runs only while CHECKCARD's st is Ok, and st takes its Status (R135). -/
def stepIfOk (f : State → State) (s : State) : State :=
  if s.ckst = .ok then assign .keepStatus (f s) else s

/-- CHECKCARD up to its HALT (R135). -/
def activate (s : State) : State :=
  let s := assign .clearCard s
  let s := assign .keepStatus (request s.cfg.reqMode s)
  stepIfOk select (stepIfOk anticoll s)

/-- INIT (R133). -/
def execInit (s : State) : Result := .next (runItems s.cfg.initProgram (assign .clearTerr s))

/-- VERSION (R134). -/
def execVersion (s : State) : Result := .next (assign .version (readReg s.cfg.regVersion s))

/-- CHECKCARD (R135): HALT always, then STATUS. -/
def execCheckcard (s : State) : Result := .next (assign .publishStatus (halt (activate s)))

/-- COMPAREIDS (R138). -/
def execCompareids (s : State) : Result := .next (assign .compare s)

/-- IDLE (R27, R162): an idle engine makes no transport event and keeps all its registers. -/
def execIdle (s : State) : Result := .next s

end Sys2Proof.Machine
end

