-- ==== Sys2Proof/Machine/Dispatch.lean ====
section
/-! DEFINITION. `exec`: one arm per row of the opcode table, each a direct call of that instruction's meaning. -/

namespace Sys2Proof.Machine

def exec (i : Instr) (s : State) : Host.Outcome State Fault Refusal :=
  match i with
  | .wrreg a d => Sys2Proof.Machine.execWrreg a d s
  | .rdreg a => Sys2Proof.Machine.execRdreg a s
  | .cmdIdle => Sys2Proof.Machine.execCmdIdle s
  | .cmdCalccrc => Sys2Proof.Machine.execCmdCalccrc s
  | .cmdTransmit => Sys2Proof.Machine.execCmdTransmit s
  | .cmdReceive => Sys2Proof.Machine.execCmdReceive s
  | .cmdTransceive => Sys2Proof.Machine.execCmdTransceive s
  | .cmdMfauthent => Sys2Proof.Machine.execCmdMfauthent s
  | .cmdSoftreset => Sys2Proof.Machine.execCmdSoftreset s
  | .frameReqa => Sys2Proof.Machine.execFrameReqa s
  | .frameReqall => Sys2Proof.Machine.execFrameReqall s
  | .frameAnticoll => Sys2Proof.Machine.execFrameAnticoll s
  | .frameSelect uid crcLo crcHi => Sys2Proof.Machine.execFrameSelect uid crcLo crcHi s
  | .frameHalt crcLo crcHi => Sys2Proof.Machine.execFrameHalt crcLo crcHi s
  | .init => Sys2Proof.Machine.execInit s
  | .version => Sys2Proof.Machine.execVersion s
  | .checkcard => Sys2Proof.Machine.execCheckcard s
  | .compareids => Sys2Proof.Machine.execCompareids s
  | .request m => Sys2Proof.Machine.execRequest m s
  | .anticoll => Sys2Proof.Machine.execAnticoll s
  | .select => Sys2Proof.Machine.execSelect s
  | .halt => Sys2Proof.Machine.execHalt s
  | .tocard cmd => Sys2Proof.Machine.execTocard cmd s
  | .calccrc => Sys2Proof.Machine.execCalccrc s
  | .setbm a m => Sys2Proof.Machine.execSetbm a m s
  | .clrbm a m => Sys2Proof.Machine.execClrbm a m s
  | .idle => Sys2Proof.Machine.execIdle s

end Sys2Proof.Machine
end

