-- ==== Sys2Proof/Machine/Sequencer.lean ====
section
/-! DEFINITION. The sequencer (OPR, PH, RET) of R27: the same operations as `exec` gives whole, written line by line as the
spec's pseudocode has them, so that a host event can land between any two transport events (R163, R164). One move runs one
line, or one transport event of a line (log 1). PH is the list of lines still to run in the running operation (log 10). -/

namespace Sys2Proof.Machine

/-- `lines` are to be run next. -/
def pushLines (ls : List Line) (s : State) : State := { s with seq := { s.seq with ph := ls ++ s.seq.ph } }

/-- The access of a listing item as a line: an instruction, or the delay event (R82). -/
def itemLine : Item → Line
  | .write a v => .instr (.wrreg a v)
  | .setBits a m => .instr (.setbm a m)
  | .clearBits a m => .instr (.clrbm a m)
  | .delay ms => .delay ms

/-- The OPR code of a sub-operation; other rows are no sequencer call (R79). -/
def subOpr : Instr → Option Opr
  | .request _ => some .request
  | .anticoll => some .anticoll
  | .select => some .select
  | .halt => some .halt
  | .tocard _ => some .tocard
  | .calccrc => some .calccrc
  | .setbm _ _ => some .setbm
  | .clrbm _ _ => some .clrbm
  | _ => none

/-- Lines of TOCARD up to the issue of the command (R94, R95, R96). -/
def tocardIssueLines (cmd : ChipCmd) : List Line :=
  [.act (.masks cmd), .act .clearRx, .micro .writeIrqEnable, .micro .chipIdle, .micro .clearCollFlag,
   .micro .clearIrqs, .micro .flushFifo, .act .idxZero, .loadLoop, .instr (cmdInstr cmd)]

/-- The line that starts sending, for Transceive only (R96). -/
def tocardSendLines (cmd : ChipCmd) : List Line := if cmd = .transceive then [.micro .startSend] else []

/-- Lines of steps 5 to 9 up to the drain (R97 to R101). -/
def tocardPollLines (c : Cfg) : List Line :=
  [.act .pollInit, .pollLoop .irq, .micro .stopSend, .instr (.rdreg c.regError), .act .errv,
   .returnIf .errorBits (some .error), .returnIf .noHit (some .timeout), .returnIf .timerOnly (some .timeout),
   .act .judge]

/-- The drain, for Transceive only, and the last test (R101 to R103). -/
def tocardEndLines (cmd : ChipCmd) : List Line :=
  if cmd = .transceive then [.drainIfClean, .act .collision] else [.act .collision]

/-- Lines of TOCARD (R92). -/
def tocardLines (c : Cfg) (cmd : ChipCmd) : List Line :=
  tocardIssueLines cmd ++ (tocardSendLines cmd ++ (tocardPollLines c ++ tocardEndLines cmd))

/-- Lines of CALCCRC (R110). -/
def calccrcLines (c : Cfg) : List Line :=
  [.micro .clearCrcIrq, .micro .flushFifo, .micro .chipIdle, .act .idxZero, .loadLoop, .instr .cmdCalccrc,
   .act .pollInit, .pollLoop .crc, .returnIf .noHit (some .timeout), .instr (.rdreg c.regCrcResultL), .act .crcLo,
   .instr (.rdreg c.regCrcResultH), .act .crcHi, .act (.statusIs .ok)]

/-- Lines of the drain (R103). -/
def drainLines (c : Cfg) : List Line :=
  [.instr (.rdreg c.regFifoLevel), .act .lvl, .instr (.rdreg c.regControl), .act .lastb, .act .lvlFloor, .act .rxlen,
   .act .lvlCap, .act .idxZero, .drainLoop]

/-- Lines of the request frame: framing, frame, transceive (R67, R118). -/
def requestFrameLines (c : Cfg) (m : Byte) : List Line :=
  [.item (.write c.regBitFraming 0x07), .act (.tx [m] 1), .instr (.tocard .transceive)]

/-- Lines of the anticollision frame (R69, R121). -/
def anticollFrameLines (c : Cfg) : List Line :=
  [.item (.write c.regBitFraming 0x00), .act (.tx [0x93, 0x20] 2), .instr (.tocard .transceive)]

/-- The pseudocode of an instruction, as lines; for the leaf transactions, their transport events. -/
def body (c : Cfg) : Instr → List Line
  | .wrreg a v => [.selAssert, .xchg (wrAddrByte a) false, .xchg v false, .selRelease]
  | .rdreg a => [.selAssert, .xchg (rdAddrByte a) false, .xchg 0x00 true, .selRelease]
  | .cmdIdle => [.instr (.wrreg c.regCommand c.cmdIdle)]
  | .cmdCalccrc => [.instr (.wrreg c.regCommand c.cmdCalccrc)]
  | .cmdTransmit => [.instr (.wrreg c.regCommand c.cmdTransmit)]
  | .cmdReceive => [.instr (.wrreg c.regCommand c.cmdReceive)]
  | .cmdTransceive => [.instr (.wrreg c.regCommand c.cmdTransceive)]
  | .cmdMfauthent => [.instr (.wrreg c.regCommand c.cmdMfauthent)]
  | .cmdSoftreset => [.instr (.wrreg c.regCommand c.cmdSoftreset)]
  | .frameReqa => requestFrameLines c 0x26
  | .frameReqall => requestFrameLines c 0x52
  | .frameAnticoll => anticollFrameLines c
  | .frameSelect u lo hi => [.act (.tx (selectHead u ++ [lo, hi]) 9), .instr (.tocard .transceive)]
  | .frameHalt lo hi => [.act (.tx [0x50, 0x00, lo, hi] 4), .instr (.tocard .transceive)]
  | .init => .act .clearTerr :: c.initProgram.map .item
  | .version => [.instr (.rdreg c.regVersion), .act .version]
  | .checkcard =>
    [.act .clearCard, .instr (.request c.reqMode), .act .keepStatus, .callIfOk .anticoll, .callIfOk .select,
     .instr .halt, .act .publishStatus]
  | .compareids => [.act .compare]
  | .request m => requestFrameLines c m ++ [.act .requestLength, .act .requestSilent]
  | .anticoll => anticollFrameLines c ++ [.act .anticollCheck]
  | .select =>
    [.act .txSelect, .instr .calccrc, .returnIf .notOk none, .act (.txCrc 7 9), .instr (.tocard .transceive),
     .act .selectCheck]
  | .halt =>
    [.act (.tx [0x50, 0x00] 2), .instr .calccrc, .act (.txCrc 2 4), .instr (.tocard .transceive)]
  | .tocard cmd => tocardLines c cmd
  | .calccrc => calccrcLines c
  | .setbm a m => [.instr (.rdreg a), .act .tmp, .writeTmpOr a m]
  | .clrbm a m => [.instr (.rdreg a), .act .tmp, .writeTmpAndNot a m]
  | .idle => []

/-- A line that runs an instruction. A sub-operation is called: the caller's position is pushed and the callee runs from
its first line (R27 (b)). Every other row runs inside the line that uses it (R27 (c), R79). -/
def enter (i : Instr) (s : State) : State :=
  match subOpr i with
  | some o =>
    { s with
      seq := { s.seq with opr := o, ph := body s.cfg i, ret := ⟨s.seq.opr, s.seq.ph⟩ :: s.seq.ret } }
  | none => pushLines (body s.cfg i) s

/-- The running operation ends here: its remaining lines are dropped (R9 `return`). -/
def returnNow (s : State) : State := { s with seq := { s.seq with ph := [] } }

/-- The callee is done: the caller's position is popped (R27 (b)). -/
def popFrame (f : Frame) (r : List Frame) (s : State) : State :=
  { s with seq := { s.seq with opr := f.opr, ph := f.lines, ret := r } }

/-- One line, in a state whose PH already stands after it. -/
def runLine (l : Line) (s : State) : Result :=
  match l with
  | .selAssert => .next { s with bus := s.bus.assertSel }
  -- R83: legal only while SEL = 1
  | .xchg t keep => if s.bus.sel then .next { s with bus := s.bus.xchg t keep } else .fault .xchgUnselected
  | .selRelease => .next { s with bus := s.bus.releaseSel }
  | .delay ms => .next (delayMs ms s)
  | .act a => .next (assign a s)
  | .instr i => .next (enter i s)
  | .item it => .next (pushLines [itemLine it] s)
  | .micro m => .next (pushLines [itemLine (m.expansion s)] s)
  | .writeTmpOr a m => .next (pushLines [.instr (.wrreg a (s.tmp ||| m))] s)
  | .writeTmpAndNot a m => .next (pushLines [.instr (.wrreg a (s.tmp &&& ~~~m))] s)
  -- R95, R112: for IDX from 0 to TXLEN-1
  | .loadLoop =>
    if s.idx.toNat < s.txlen.val then
      .next (pushLines [.instr (.wrreg s.cfg.regFifoData (s.txAt s.idx.toNat)), .act .idxNext, .loadLoop] s)
    else .next s
  -- R97, R113: while CNT < BUDGET and HIT = 0
  | .pollLoop k =>
    if s.cnt < k.budget s.cfg && !s.hit then
      .next (pushLines [.instr (.rdreg (k.register s.cfg)), .act (.pollTest k), .pollLoop k] s)
    else .next s
  -- R101: the drain runs when no bit of 0x1B is set
  | .drainIfClean => if anyBit s.errv 0x1B then .next s else .next (pushLines (drainLines s.cfg) s)
  -- R103: for IDX from 0 to LVL-1
  | .drainLoop =>
    if s.idx.toNat < s.lvl.toNat then
      .next (pushLines [.instr (.rdreg s.cfg.regFifoData), .act .rxPut, .act .idxNext, .drainLoop] s)
    else .next s
  -- R135: if st = Ok: st <- step()
  | .callIfOk i => if s.ckst = .ok then .next (pushLines [.instr i, .act .keepStatus] s) else .next s
  | .returnIf c v =>
    if c.holds s then .next (returnNow (match v with | some x => assign (.statusIs x) s | none => s)) else .next s

/-- The lines after the next one. -/
def dropLine (s : State) : State := { s with seq := { s.seq with ph := s.seq.ph.tail } }

/-- One move of the engine: the next line; with none left, the return to the caller; with no caller, the end of the
operation (R27, R132). An idle engine does nothing (R162). -/
def engineMove (s : State) : Result :=
  if s.seq.busy then
    match s.seq.ph with
    | l :: _ => runLine l (dropLine s)
    | [] =>
      match s.seq.ret with
      | f :: r => .next (popFrame f r s)
      | [] => .next (endOperation s)
  else .next s

/-- The instruction the engine is about to run: that of the next line while BUSY = 1, IDLE while BUSY = 0. -/
def State.fetch (s : State) : Option Instr :=
  if s.seq.busy then
    match s.seq.ph with
    | .instr i :: _ => some i
    | _ => none
  else some .idle

/-- The state in which the fetched instruction runs: its line is taken off PH. -/
def State.afterFetch (s : State) : State := if s.seq.busy then dropLine s else s

/-- The OPR under which an instruction placed from outside runs: a host operation's own code, IDLE's for IDLE, and
CHECKCARD's for what the host cannot start itself (log 5). -/
def placedOpr : Instr → Opr
  | .init => .init
  | .version => .version
  | .compareids => .compareids
  | .idle => .idle
  | _ => .checkcard

/-- The instruction `i` is what the engine runs next, and nothing else: IDLE is the idle engine (log 5). -/
def State.withInstr (s : State) (i : Instr) : State :=
  { s with
    seq := { busy := i != .idle, opr := placedOpr i, ph := if i = .idle then [] else [.instr i], ret := [] }
    moves := [] }

/-- The step on a configuration the model accepts: the due move, or with none due the fetched instruction whole, since
then no host event can land inside it (log 4). -/
def stepMove (s : State) : Result :=
  match s.moves with
  | .start opc ida idb :: ms => .next (startEvent opc ida idb { s with moves := ms })
  | .reset :: ms => .next (resetEvent { s with moves := ms })
  | .engine :: ms => engineMove { s with moves := ms }
  | [] =>
    match s.fetch with
    | some i => exec i s.afterFetch
    | none => engineMove s

end Sys2Proof.Machine
end

