-- ==== Sys2Proof/Machine/Step.lean ====
section
/-! DEFINITION. One step of the machine, and the placing of a table word where the next step runs it (log 5). -/

namespace Sys2Proof.Machine

/-- One step: refused on a configuration the model does not accept (R7, U1, U8, D35), else the move that is due. -/
def step (s : State) : Host.Outcome State Fault Refusal :=
  if s.cfg.wf then stepMove s else .refused .badConfig

/-- `s` with the instruction of a table word selected to run next, if the word is one under the machine's own configuration
(R7; log 5, log 11). -/
def State.withFetchWord (s : State) (nbits w : Nat) : State :=
  match decodeWordOf s.cfg nbits w with
  | some i => s.withInstr i
  | none => s

end Sys2Proof.Machine
end

