-- ==== Sys2Proof/Safety.lean ====
section
/-! DEFINITION. The terms the statements are written in: the accesses a piece of trace shows (R82), the closed form of one
transaction, the state invariant of a safe run (R27, R28, R75), states that differ in transport faults only (R89), and runs
of engine moves. -/

namespace Sys2Proof.Machine

/-- One access in the listing notation: `W name hh`, `R name -> hh` or `DELAY ms` (R10, R82). -/
inductive Access where
  | write (a : Addr) (v : Byte)
  | read (a : Addr) (v : Byte)
  | delay (ms : BitVec 16)
  deriving DecidableEq, Repr

/-- A piece of trace is exactly the transactions of a list of accesses, each the four events of R84 or R85. -/
def showsAccesses : List Access → List Event → Bool
  | [], es => es.isEmpty
  | .write a v :: l, .selAssert :: .xchg b _ :: .xchg d _ :: .selRelease :: es =>
    b == (a.setWidth 8 <<< 1) &&& 0x7E && d == v && showsAccesses l es
  | .read a v :: l, .selAssert :: .xchg b _ :: .xchg d r :: .selRelease :: es =>
    b == (a.setWidth 8 <<< 1) ||| 0x80 && d == 0x00 && r == v && showsAccesses l es
  | .delay ms :: l, .delay ms' :: es => ms == ms' && showsAccesses l es
  | _ :: _, _ => false

/-- The accesses one item of INIT_PROGRAM makes; a read-modify-write shows the byte it read (R87, R88, R133). -/
def itemShows : Item → List Access → Prop
  | .write a v, l => l = [.write a v]
  | .setBits a m, l => ∃ x, l = [.read a x, .write a (x ||| m)]
  | .clearBits a m, l => ∃ x, l = [.read a x, .write a (x &&& ~~~m)]
  | .delay ms, l => l = [.delay ms]

/-- The answer the environment gives to the exchange `k` exchanges from now (R43). -/
def Bus.answerAt (b : Bus) (k : Nat) : Answer :=
  match b.answers[k]? with
  | some a => a
  | none => ⟨Config.envByte (b.xcount + k), Config.envFault (b.xcount + k)⟩

/-- The bus after one write transaction, all at once (R84). -/
def Bus.afterWrite (b : Bus) (a : Addr) (v : Byte) : Bus where
  sel := false
  terr := b.terr || (b.answerAt 0).fault || (b.answerAt 1).fault
  rdv := b.rdv
  trace :=
    b.trace ++
      [.selAssert, .xchg ((a.setWidth 8 <<< 1) &&& 0x7E) (b.answerAt 0).byte, .xchg v (b.answerAt 1).byte, .selRelease]
  answers := b.answers.drop 2
  xcount := b.xcount + 2

/-- The bus after one read transaction, all at once; `rdv` is the byte of the second exchange (R85). -/
def Bus.afterRead (b : Bus) (a : Addr) : Bus where
  sel := false
  terr := b.terr || (b.answerAt 0).fault || (b.answerAt 1).fault
  rdv := (b.answerAt 1).byte
  trace :=
    b.trace ++
      [.selAssert, .xchg ((a.setWidth 8 <<< 1) ||| 0x80) (b.answerAt 0).byte, .xchg 0x00 (b.answerAt 1).byte, .selRelease]
  answers := b.answers.drop 2
  xcount := b.xcount + 2

/-- Some of the next `n` answers carries a fault flag. -/
def Bus.faultWithin (b : Bus) (n : Nat) : Bool := (List.range n).any fun k => (b.answerAt k).fault

/-- Lines that hold whole transactions only, each one select assertion, two exchanges and the release (R86 (a), (b)). -/
def released : List Line → Bool
  | [] => true
  | .selAssert :: .xchg _ _ :: .xchg _ _ :: .selRelease :: l => released l
  | .selAssert :: _ => false
  | .xchg _ _ :: _ => false
  | .selRelease :: _ => false
  | _ :: l => released l

/-- Lines that begin inside a transaction and hold whole transactions after it. -/
def inTransaction : List Line → Bool
  | .xchg _ _ :: .xchg _ _ :: .selRelease :: l => released l
  | .xchg _ _ :: .selRelease :: l => released l
  | .selRelease :: l => released l
  | _ => false

/-- How many callers' positions an instruction puts on RET at most (R27 (b), (c)). -/
def callDepth : Instr → Nat
  | .setbm _ _ => 1
  | .clrbm _ _ => 1
  | .init => 1
  | .tocard _ => 2
  | .calccrc => 2
  | .frameReqa => 2
  | .frameReqall => 2
  | .frameAnticoll => 2
  | .frameSelect _ _ _ => 2
  | .frameHalt _ _ => 2
  | .request _ => 3
  | .anticoll => 3
  | .select => 3
  | .halt => 3
  | .checkcard => 3
  | .wrreg _ _ => 0
  | .rdreg _ => 0
  | .cmdIdle => 0
  | .cmdCalccrc => 0
  | .cmdTransmit => 0
  | .cmdReceive => 0
  | .cmdTransceive => 0
  | .cmdMfauthent => 0
  | .cmdSoftreset => 0
  | .version => 0
  | .compareids => 0
  | .idle => 0

/-- The same for a line. -/
def lineDepth : Line → Nat
  | .instr i => callDepth i
  | .callIfOk i => callDepth i
  | .item _ => 1
  | .micro _ => 1
  | .selAssert => 0
  | .xchg _ _ => 0
  | .selRelease => 0
  | .delay _ => 0
  | .act _ => 0
  | .writeTmpOr _ _ => 0
  | .writeTmpAndNot _ _ => 0
  | .loadLoop => 0
  | .pollLoop _ => 0
  | .drainIfClean => 0
  | .drainLoop => 0
  | .returnIf _ _ => 0

/-- The same for the lines left in an operation. -/
def linesDepth : List Line → Nat
  | [] => 0
  | l :: ls => max (lineDepth l) (linesDepth ls)

/-- The running operation and every caller stay within a depth of three (R27 (c)). -/
def depthOk : List Line → List Frame → Bool
  | ls, [] => linesDepth ls ≤ 3
  | ls, f :: r => linesDepth ls + (r.length + 1) ≤ 3 && depthOk f.lines r

/-- SEL is 1 exactly inside a transaction (R28). -/
def selInvariant (s : State) : Bool :=
  (if s.bus.sel then inTransaction s.seq.ph else released s.seq.ph) && s.seq.ret.all fun f => released f.lines

/-- While BUSY = 0 nothing is left to run, OPR = IDLE and select is released; while BUSY = 1 OPR names an operation
(R27 (d), R28, R132). -/
def busyInvariant (s : State) : Bool :=
  if s.seq.busy then s.seq.opr != .idle && s.seq.ret.all fun f => f.opr != .idle
  else s.seq.opr == .idle && s.seq.ph.isEmpty && s.seq.ret.isEmpty && !s.bus.sel

/-- The invariant of a safe run: select line, sequencer, call depth and UID checksum (R23, R27, R28). -/
def invariant (s : State) : Bool :=
  selInvariant s && busyInvariant s && depthOk s.seq.ph s.seq.ret && checksumOk s.uid

/-- A state with every transport fault, past and scripted, taken out of it (R89). -/
def eraseFaults (s : State) : State :=
  { s with
    bus := { s.bus with terr := false, answers := s.bus.answers.map fun a => ⟨a.byte, false⟩ } }

/-- The state with `n` engine moves due and nothing after them. -/
def withEngineMoves (n : Nat) (s : State) : State := { s with moves := List.replicate n .engine }

end Sys2Proof.Machine
end

