-- ==== Sys2Proof/Certificates/Slice0/Obligations.lean ====
section
/-! DEFINITION. The statements for the provers. Each docstring names the rules of spec/ it formalises; a clause that rests
on a choice of the model's own names the log entry. -/

open Sys2Proof Sys2Proof.Machine

/-! ## Encodings -/

/-- R59 to R79: the words of an instruction decode to it, every operand at every value, whatever follows. Class K needs the
seven command codes to be different bytes (R65 leaves them to Cfg). The operand bytes of classes S are log 11's. -/
def Obligations.DecodeOfEncodeIsTheInstruction : Prop :=
  ∀ (c : Cfg) (i : Instr) (rest : List Byte),
    c.commandsDistinct = true → decode c (encode c i).1 ((encode c i).2 ++ rest) = .ok i rest

/-- R60 to R62, R65, R67 to R71, R77: in the classes W, K, F and H every accepted word is the word of the instruction it
decodes to, so no bit is ignored. -/
def Obligations.EncodeOfDecodeGivesTheBytes : Prop :=
  ∀ (c : Cfg) (k : EncClass) (bs : List Byte) (i : Instr) (rest : List Byte),
    k ≠ .seq → decode c k bs = .ok i rest → (encode c i).1 = k ∧ (encode c i).2 ++ rest = bs

/-- R60, R61, R62, R90: the address byte is RW, a5..a0, 0; a write sends its data second, a read the dummy 0x00. -/
def Obligations.WireWordsHaveTheStatedFields : Prop :=
  ∀ (c : Cfg) (a : Addr) (d : Byte),
    encode c (.wrreg a d) = (.wire, [0#1 ++ a ++ 0#1, d]) ∧
    encode c (.rdreg a) = (.wire, [1#1 ++ a ++ 0#1, 0x00]) ∧
    0#1 ++ a ++ 0#1 = (a.setWidth 8 <<< 1) &&& 0x7E ∧
    1#1 ++ a ++ 0#1 = (a.setWidth 8 <<< 1) ||| 0x80

/-- R62, R80: words that no rule gives a meaning are rejected by name, each class as it begins. W: an address byte with bit 0
set; a read whose second byte is not 0x00. K: a byte that is none of the seven codes. F: a first byte that is none of 26, 52,
93 and 50; 93 followed by neither 20 nor 70; 50 not followed by 00. H: a code above 3 (the byte is log 11's). S: a code from 13
up; a command index above 6 or an address above 63 among its operand bytes (log 11's). -/
def Obligations.ReservedEncodingsAreRejected : Prop :=
  ∀ (c : Cfg) (b d m : Byte) (rest : List Byte),
    (b.getLsbD 0 = true → decode c .wire (b :: d :: rest) = .reject .addressBitZero) ∧
    (b.getLsbD 0 = false → b.getLsbD 7 = true → d ≠ 0 → decode c .wire (b :: d :: rest) = .reject .dummyNotZero) ∧
    ((∀ k : ChipCmd, cmdCode c k ≠ b) → decode c .chipCmd (b :: rest) = .reject .unknownCommand) ∧
    (b ≠ 0x26 → b ≠ 0x52 → b ≠ 0x93 → b ≠ 0x50 → decode c .frame (b :: rest) = .reject .unknownFrame) ∧
    (d ≠ 0x20 → d ≠ 0x70 → decode c .frame (0x93 :: d :: rest) = .reject .unknownFrame) ∧
    (d ≠ 0x00 → decode c .frame (0x50 :: d :: rest) = .reject .unknownFrame) ∧
    (4 ≤ b.toNat → decode c .host (b :: rest) = .reject .hostCodeTooWide) ∧
    (13 ≤ b.toNat → decode c .seq (b :: rest) = .reject .unreachableCode) ∧
    (7 ≤ d.toNat → decode c .seq (9 :: d :: rest) = .reject .operandOutOfRange) ∧
    (64 ≤ d.toNat →
      decode c .seq (11 :: d :: m :: rest) = .reject .operandOutOfRange ∧
      decode c .seq (12 :: d :: m :: rest) = .reject .operandOutOfRange)

/-- Sanity: words written out from R61, R62, R65, R67 to R71, R77 and R79 decode to what they stand for, under every
configuration whose seven command codes are different bytes; the class K byte is the configuration's own, never a default
(R7). That classes H and S stand in one byte is log 11's. -/
def Obligations.WordsWrittenOutDecode : Prop :=
  ∀ c : Cfg, c.commandsDistinct = true →
    decode c .wire [0x1A, 0x07] = .ok (.wrreg 0x0D 0x07) [] ∧
    decode c .wire [0x88, 0x00] = .ok (.rdreg 0x04) [] ∧
    decode c .chipCmd [c.cmdTransceive] = .ok .cmdTransceive [] ∧
    decode c .frame [0x93, 0x70, 0x4D, 0xAF, 0x84, 0x59, 0x3F, 0x18, 0xD6] =
      .ok (.frameSelect ⟨0x4D, 0xAF, 0x84, 0x59, 0x3F⟩ 0x18 0xD6) [] ∧
    decode c .frame [0x50, 0x00, 0x57, 0xCD] = .ok (.frameHalt 0x57 0xCD) [] ∧
    decode c .host [2] = .ok .checkcard [] ∧
    decode c .seq [10] = .ok .calccrc []

/-- R66, R79, R143: the mask pairs and the codes of Status and OPR. -/
def Obligations.CodeTablesAreAsListed : Prop :=
  (∀ k : ChipCmd, enableMask k = if k = .mfAuthent then 0x12 else if k = .transceive then 0x77 else 0x00) ∧
  (∀ k : ChipCmd, waitMask k = if k = .mfAuthent then 0x10 else if k = .transceive then 0x30 else 0x00) ∧
  [Status.ok, .noTag, .error, .timeout].map statusCode = [0, 1, 2, 3] ∧
  [Opr.idle, .init, .version, .checkcard, .compareids, .request, .anticoll, .select, .halt, .tocard, .calccrc, .setbm,
    .clrbm].map oprCode = [0, 1, 2, 3, 4, 5, 6, 7, 8, 9, 10, 11, 12]

/-! ## Register access -/

/-- R84: WRREG is its four events; both received bytes are dropped, TERR takes either fault, nothing else changes. -/
def Obligations.WriteRegisterIsOneTransaction : Prop :=
  ∀ (a : Addr) (v : Byte) (s : State), exec (.wrreg a v) s = .next { s with bus := s.bus.afterWrite a v }

/-- R85: RDREG is its four events and yields the byte of the second exchange (in `rdv`, log 8); nothing else changes. -/
def Obligations.ReadRegisterIsOneTransaction : Prop :=
  ∀ (a : Addr) (s : State), exec (.rdreg a) s = .next { s with bus := s.bus.afterRead a }

/-- R87: SETBM reads, then writes the byte read with the mask or-ed in; TMP holds the byte read. -/
def Obligations.SetBitMaskReadsThenWrites : Prop :=
  ∀ (a : Addr) (m : Byte) (s : State),
    exec (.setbm a m) s =
      .next { s with
        tmp := (s.bus.answerAt 1).byte
        bus := (s.bus.afterRead a).afterWrite a ((s.bus.answerAt 1).byte ||| m) }

/-- R88: CLRBM reads, then writes the byte read with the mask and-ed out; TMP holds the byte read. -/
def Obligations.ClearBitMaskReadsThenWrites : Prop :=
  ∀ (a : Addr) (m : Byte) (s : State),
    exec (.clrbm a m) s =
      .next { s with
        tmp := (s.bus.answerAt 1).byte
        bus := (s.bus.afterRead a).afterWrite a ((s.bus.answerAt 1).byte &&& ~~~m) }

/-! ## Chip commands and card frames -/

/-- R65: each of CMD.IDLE, CMD.CALCCRC, CMD.TRANSMIT, CMD.RECEIVE, CMD.TRANSCEIVE, CMD.MFAUTHENT and CMD.SOFTRESET writes its
own Cfg code whole to REG_COMMAND and changes nothing else (that the masks are not latched is log 12). -/
def Obligations.ChipCommandsWriteTheirCode : Prop :=
  ∀ s : State,
    exec .cmdIdle s = .next { s with bus := s.bus.afterWrite s.cfg.regCommand s.cfg.cmdIdle } ∧
    exec .cmdCalccrc s = .next { s with bus := s.bus.afterWrite s.cfg.regCommand s.cfg.cmdCalccrc } ∧
    exec .cmdTransmit s = .next { s with bus := s.bus.afterWrite s.cfg.regCommand s.cfg.cmdTransmit } ∧
    exec .cmdReceive s = .next { s with bus := s.bus.afterWrite s.cfg.regCommand s.cfg.cmdReceive } ∧
    exec .cmdTransceive s = .next { s with bus := s.bus.afterWrite s.cfg.regCommand s.cfg.cmdTransceive } ∧
    exec .cmdMfauthent s = .next { s with bus := s.bus.afterWrite s.cfg.regCommand s.cfg.cmdMfauthent } ∧
    exec .cmdSoftreset s = .next { s with bus := s.bus.afterWrite s.cfg.regCommand s.cfg.cmdSoftreset }

/-- R67, R68, R69: FRAME.REQA, FRAME.REQALL and FRAME.ANTICOLL complete with the state TOCARD (Transceive) leaves when
started with the frame in TXBUF, its length in TXLEN and the format's framing value written before (log 13). -/
def Obligations.ShortFramesAreTransceived : Prop :=
  ∀ s : State, ∃ t u v : State,
    exec .frameReqa s = .next t ∧ exec .frameReqall s = .next u ∧ exec .frameAnticoll s = .next v ∧
    exec (.tocard .transceive)
      { s with txbuf := s.txbuf.set 0 0x26, txlen := 1, bus := s.bus.afterWrite s.cfg.regBitFraming 0x07 } = .next t ∧
    exec (.tocard .transceive)
      { s with txbuf := s.txbuf.set 0 0x52, txlen := 1, bus := s.bus.afterWrite s.cfg.regBitFraming 0x07 } = .next u ∧
    exec (.tocard .transceive)
      { s with
        txbuf := (s.txbuf.set 0 0x93).set 1 0x20, txlen := 2
        bus := s.bus.afterWrite s.cfg.regBitFraming 0x00 } = .next v

/-- R70, R71: FRAME.SELECT and FRAME.HALT complete with the state TOCARD (Transceive) leaves when started with the nine or
four bytes in TXBUF; no framing value is written (log 13). -/
def Obligations.CrcFramesAreTransceived : Prop :=
  ∀ (u : CardId) (lo hi : Byte) (s : State), ∃ t v : State,
    exec (.frameSelect u lo hi) s = .next t ∧ exec (.frameHalt lo hi) s = .next v ∧
    exec (.tocard .transceive)
      { s with
        txbuf :=
          ((((((((s.txbuf.set 0 0x93).set 1 0x70).set 2 u.b0).set 3 u.b1).set 4 u.b2).set 5 u.b3).set 6 u.b4).set 7
            lo).set 8 hi
        txlen := 9 } = .next t ∧
    exec (.tocard .transceive)
      { s with txbuf := (((s.txbuf.set 0 0x50).set 1 0x00).set 2 lo).set 3 hi, txlen := 4 } = .next v

/-! ## The command engine -/

/-- R92, R94 to R99, R103: TOCARD makes exactly the transactions of its pseudocode, in order, and its poll is that of R97:
CNT reads, none but the last terminating, HIT exactly when the last one terminates, CNT = POLL_BUDGET when none does. -/
def Obligations.TocardMakesItsTransactions : Prop :=
  ∀ (cmd : ChipCmd) (s : State), ∃ (t : State) (es : List Event) (polls : List Byte) (x y z n c : Byte),
    exec (.tocard cmd) s = .next t ∧ t.bus.trace = s.bus.trace ++ es ∧
    t.en = (if cmd = .mfAuthent then 0x12 else if cmd = .transceive then 0x77 else 0x00) ∧
    t.wait = (if cmd = .mfAuthent then 0x10 else if cmd = .transceive then 0x30 else 0x00) ∧
    showsAccesses
      (([.write s.cfg.regComIen (t.en ||| 0x80), .write s.cfg.regCommand s.cfg.cmdIdle,
          .read s.cfg.regColl x, .write s.cfg.regColl (x &&& 0x7F),
          .write s.cfg.regComIrq 0x7F, .write s.cfg.regFifoLevel 0x80] : List Access)
        ++ ((s.txbuf.toList.take s.txlen.val).map (.write s.cfg.regFifoData) : List Access)
        ++ ([.write s.cfg.regCommand (cmdCode s.cfg cmd)] : List Access)
        ++ ((if cmd = .transceive then
              [.read s.cfg.regBitFraming y, .write s.cfg.regBitFraming (y ||| 0x80)]
            else []) : List Access)
        ++ (polls.map (.read s.cfg.regComIrq) : List Access)
        ++ ([.read s.cfg.regBitFraming z, .write s.cfg.regBitFraming (z &&& 0x7F),
            .read s.cfg.regError t.errv] : List Access)
        ++ ((if t.st = .ok ∧ cmd = .transceive then
              .read s.cfg.regFifoLevel n :: .read s.cfg.regControl c ::
                (t.rxbuf.toList.take t.lvl.toNat).map (.read s.cfg.regFifoData)
            else []) : List Access)) es = true ∧
    polls.length = t.cnt.toNat ∧ t.cnt.toNat ≤ s.cfg.pollBudget.toNat ∧
    (∀ v ∈ polls.dropLast, v &&& 0x01 = 0 ∧ v &&& t.wait = 0) ∧
    t.irqv = polls.getLast?.getD 0x00 ∧
    (t.hit = true ↔ t.irqv &&& 0x01 ≠ 0 ∨ t.irqv &&& t.wait ≠ 0) ∧
    (t.hit = false → t.cnt = s.cfg.pollBudget)

/-- R104: the Status of TOCARD in priority order, on the bytes it latched; NoTag is never a result. -/
def Obligations.TocardStatusFollowsThePriority : Prop :=
  ∀ (cmd : ChipCmd) (s : State), ∃ t : State,
    exec (.tocard cmd) s = .next t ∧
    t.st =
      (if t.errv &&& 0x13 ≠ 0 then .error
       else if t.hit = false then .timeout
       else if t.irqv &&& 0x01 ≠ 0 ∧ t.irqv &&& t.wait = 0 then .timeout
       else if t.errv &&& 0x08 ≠ 0 then .error
       else .ok) ∧
    t.st ≠ .noTag

/-- R16, R18, R19, R73, R103: what the drain leaves: the level read, zero taken as one and cut at sixteen; the length
computed before the cut; the bytes drained from index 0 and zeros after them. -/
def Obligations.TocardDrainDecodesTheLength : Prop :=
  ∀ s : State, ∃ t : State,
    exec (.tocard .transceive) s = .next t ∧
    (t.st = .ok → ∃ (before es : List Event) (n c : Byte),
      t.bus.trace = s.bus.trace ++ before ++ es ∧
      showsAccesses
        (.read s.cfg.regFifoLevel n :: .read s.cfg.regControl c ::
          (t.rxbuf.toList.take t.lvl.toNat).map (.read s.cfg.regFifoData)) es = true ∧
      t.lvl.toNat = min (max n.toNat 1) 16 ∧ t.lastb.toNat = c.toNat % 8 ∧
      t.rxlen.toNat =
        (if c.toNat % 8 = 0 then 8 * max n.toNat 1 else 8 * (max n.toNat 1 - 1) + c.toNat % 8) ∧
      t.rxbuf.toList.drop t.lvl.toNat = List.replicate (16 - t.lvl.toNat) 0x00)

/-- R99, R100, R101: without a drain RXBUF is all zero, RXLEN is zero and the drain's latches keep their values. -/
def Obligations.TocardWithoutDrainLeavesNoResponse : Prop :=
  ∀ (cmd : ChipCmd) (s : State), ∃ t : State,
    exec (.tocard cmd) s = .next t ∧
    (t.st ≠ .ok ∨ cmd ≠ .transceive →
      t.rxbuf = Vector.replicate 16 0x00 ∧ t.rxlen = 0 ∧ t.lvl = s.lvl ∧ t.lastb = s.lastb)

/-- R107: TOCARD writes EN, WAIT, RXBUF, RXLEN, CNT, IRQV, HIT, ERRV, TMP, IDX, LVL, LASTB and may set TERR (in `bus`); it
writes nothing else, so TXBUF, TXLEN, CRC, UID, TYPE, STATUS and VER stay (`st` is its returned Status, log 8). -/
def Obligations.TocardFrame : Prop :=
  ∀ (cmd : ChipCmd) (s : State), ∃ t : State,
    exec (.tocard cmd) s = .next t ∧
    t = { s with
      en := t.en, wait := t.wait, rxbuf := t.rxbuf, rxlen := t.rxlen, cnt := t.cnt, irqv := t.irqv, hit := t.hit,
      errv := t.errv, tmp := t.tmp, idx := t.idx, lvl := t.lvl, lastb := t.lastb, st := t.st, bus := t.bus }

/-- R105: a command whose wait mask is zero ends in Error or Timeout, never Ok. -/
def Obligations.TocardWithoutWaitBitNeverSucceeds : Prop :=
  ∀ (cmd : ChipCmd) (s : State), cmd ≠ .transceive → cmd ≠ .mfAuthent → ∃ t : State,
    exec (.tocard cmd) s = .next t ∧ (t.st = .error ∨ t.st = .timeout)

/-- R106: the number of transactions of one TOCARD, two exchanges each. -/
def Obligations.TocardTransactionCount : Prop :=
  ∀ (cmd : ChipCmd) (s : State), ∃ t : State,
    exec (.tocard cmd) s = .next t ∧
    t.bus.xcount =
      s.bus.xcount +
        2 * (6 + s.txlen.val + 1 + (if cmd = .transceive then 2 else 0) + t.cnt.toNat + 2 + 1 +
          (if t.st = .ok ∧ cmd = .transceive then 2 + t.lvl.toNat else 0))

/-! ## The CRC wrapper -/

/-- R110, R112: CALCCRC makes exactly the transactions of its pseudocode, in order; its poll looks at bit 0x04 alone; on a
hit CRC[0] is the low half read first and CRC[1] the high half and the Status is Ok, else the Status is Timeout and CRC is
kept. -/
def Obligations.CalccrcMakesItsTransactions : Prop :=
  ∀ s : State, ∃ (t : State) (es : List Event) (polls : List Byte) (x : Byte),
    exec .calccrc s = .next t ∧ t.bus.trace = s.bus.trace ++ es ∧
    showsAccesses
      (([.read s.cfg.regDivIrq x, .write s.cfg.regDivIrq (x &&& 0xFB), .write s.cfg.regFifoLevel 0x80,
          .write s.cfg.regCommand s.cfg.cmdIdle] : List Access)
        ++ ((s.txbuf.toList.take s.txlen.val).map (.write s.cfg.regFifoData) : List Access)
        ++ ([.write s.cfg.regCommand s.cfg.cmdCalccrc] : List Access)
        ++ (polls.map (.read s.cfg.regDivIrq) : List Access)
        ++ ((if t.hit = true then
              [.read s.cfg.regCrcResultL t.crcLo, .read s.cfg.regCrcResultH t.crcHi] else []) : List Access))
      es = true ∧
    polls.length = t.cnt.toNat ∧ t.cnt.toNat ≤ s.cfg.crcBudget.toNat ∧
    (∀ v ∈ polls.dropLast, v &&& 0x04 = 0) ∧
    t.irqv = polls.getLast?.getD 0x00 ∧
    (t.hit = true ↔ t.irqv &&& 0x04 ≠ 0) ∧
    (t.hit = false → t.cnt = s.cfg.crcBudget ∧ t.crcLo = s.crcLo ∧ t.crcHi = s.crcHi) ∧
    t.st = (if t.hit = true then .ok else .timeout)

/-- R115: CALCCRC writes TMP, IDX, CNT, IRQV, HIT and CRC and may set TERR (in `bus`); nothing else changes but the
returned Status `st` (log 8). -/
def Obligations.CalccrcFrame : Prop :=
  ∀ s : State, ∃ t : State,
    exec .calccrc s = .next t ∧
    t = { s with
      tmp := t.tmp, idx := t.idx, cnt := t.cnt, irqv := t.irqv, hit := t.hit, crcLo := t.crcLo, crcHi := t.crcHi,
      st := t.st, bus := t.bus }

/-! ## Card activation -/

/-- R118, R119: REQUEST writes framing 0x07, sends the mode byte, and gives Ok for sixteen bits, Error for any other length
or an Error, and REQ_SILENT_STATUS for a Timeout. -/
def Obligations.RequestDemandsSixteenBits : Prop :=
  ∀ (m : Byte) (s : State), ∃ u : State,
    exec (.tocard .transceive)
      { s with txbuf := s.txbuf.set 0 m, txlen := 1, bus := s.bus.afterWrite s.cfg.regBitFraming 0x07 } = .next u ∧
    exec (.request m) s =
      .next { u with
        st :=
          if u.st = .ok then (if u.rxlen = 16 then .ok else .error)
          else if u.st = .timeout then s.cfg.reqSilentStatus
          else u.st }

/-- R121, R122: ANTICOLL writes framing 0x00, sends 93 20, and on Ok checks RXBUF[0..4] whatever the length: the XOR of the
first four must be the fifth; then UID takes the five bytes, else the Status is Error and UID is kept. -/
def Obligations.AnticollChecksTheChecksum : Prop :=
  ∀ s : State, ∃ u : State,
    exec (.tocard .transceive)
      { s with
        txbuf := (s.txbuf.set 0 0x93).set 1 0x20, txlen := 2
        bus := s.bus.afterWrite s.cfg.regBitFraming 0x00 } = .next u ∧
    exec .anticoll s =
      .next
        (if u.st = .ok then
          if u.rxbuf[0] ^^^ u.rxbuf[1] ^^^ u.rxbuf[2] ^^^ u.rxbuf[3] = u.rxbuf[4] then
            { u with uid := ⟨u.rxbuf[0], u.rxbuf[1], u.rxbuf[2], u.rxbuf[3], u.rxbuf[4]⟩ }
          else { u with st := .error }
        else u)

/-- R124, R125: SELECT asks for the CRC of 93 70 UID[0..4]; a Timeout there ends it with no transceive; otherwise the CRC is
appended, the nine bytes are sent, and TYPE takes the first byte of a 24-bit answer, any other length being Error. -/
def Obligations.SelectDemandsTwentyFourBits : Prop :=
  ∀ s : State, ∃ k t : State,
    exec .calccrc
      { s with
        txbuf :=
          ((((((s.txbuf.set 0 0x93).set 1 0x70).set 2 s.uid.b0).set 3 s.uid.b1).set 4 s.uid.b2).set 5 s.uid.b3).set 6
            s.uid.b4
        txlen := 7 } = .next k ∧
    exec .select s = .next t ∧
    (k.st ≠ .ok → t = k) ∧
    (k.st = .ok → ∃ u : State,
      exec (.tocard .transceive)
        { k with txbuf := (k.txbuf.set 7 k.crcLo).set 8 k.crcHi, txlen := 9 } = .next u ∧
      t =
        (if u.st = .ok then
          if u.rxlen = 24 then { u with cardType := u.rxbuf[0] } else { u with st := .error }
        else u))

/-- R127: HALT asks for the CRC of 50 00 and, whatever CALCCRC returned, sends 50 00 with CRC[0..1] as they then stand; its
state is what that TOCARD leaves. -/
def Obligations.HaltSendsItsFrameWhateverHappens : Prop :=
  ∀ s : State, ∃ k t : State,
    exec .calccrc { s with txbuf := (s.txbuf.set 0 0x50).set 1 0x00, txlen := 2 } = .next k ∧
    exec (.tocard .transceive)
      { k with txbuf := (k.txbuf.set 2 k.crcLo).set 3 k.crcHi, txlen := 4 } = .next t ∧
    exec .halt s = .next t

/-! ## Host operations -/

/-- R133: INIT clears TERR, then makes the accesses of INIT_PROGRAM in order; it writes nothing but TMP and the bus. -/
def Obligations.InitRunsItsProgram : Prop :=
  ∀ s : State, ∃ (t : State) (es : List Event) (accesses : List (List Access)),
    exec .init s = .next t ∧ t = { s with tmp := t.tmp, bus := t.bus } ∧
    t.bus.trace = s.bus.trace ++ es ∧
    List.Forall₂ itemShows s.cfg.initProgram accesses ∧ showsAccesses accesses.flatten es = true ∧
    t.bus.terr = s.bus.faultWithin (t.bus.xcount - s.bus.xcount)

/-- R134: VERSION is one read of REG_VERSION into VER; nothing else changes. -/
def Obligations.VersionReadsTheVersionRegister : Prop :=
  ∀ s : State,
    exec .version s = .next { s with ver := (s.bus.answerAt 1).byte, bus := s.bus.afterRead s.cfg.regVersion }

/-- R135, R136 (a), (b): CHECKCARD clears UID and TYPE, runs REQUEST, ANTICOLL if that was Ok, SELECT if that was Ok, then
HALT exactly once whatever happened, and last writes STATUS with the Status of the first step that was not Ok, or Ok. -/
def Obligations.CheckcardRunsTheStepsAndAlwaysHalts : Prop :=
  ∀ s : State, ∃ r a b h : State,
    exec (.request s.cfg.reqMode) { s with uid := ⟨0, 0, 0, 0, 0⟩, cardType := 0 } = .next r ∧
    (if r.st = .ok then exec .anticoll { r with ckst := .ok } = .next a else a = r) ∧
    (if a.st = .ok then exec .select { a with ckst := .ok } = .next b else b = a) ∧
    exec .halt { b with ckst := b.st } = .next h ∧
    exec .checkcard s = .next { h with status := b.st }

/-- R23, R135: the identifier at the end of CHECKCARD. UID always has a right checksum, and TYPE is zero unless STATUS is Ok.
Where REQUEST or ANTICOLL failed (a is the state of the last of the two that ran), STATUS is its Status and UID and TYPE are
zero; where both were Ok, UID is what ANTICOLL left, whatever SELECT gave. -/
def Obligations.CheckcardLeavesACheckedIdentifier : Prop :=
  ∀ s : State, ∃ r a t : State,
    exec (.request s.cfg.reqMode) { s with uid := ⟨0, 0, 0, 0, 0⟩, cardType := 0 } = .next r ∧
    (if r.st = .ok then exec .anticoll { r with ckst := .ok } = .next a else a = r) ∧
    exec .checkcard s = .next t ∧
    t.uid.b0 ^^^ t.uid.b1 ^^^ t.uid.b2 ^^^ t.uid.b3 = t.uid.b4 ∧
    (t.status ≠ .ok → t.cardType = 0) ∧
    (r.st ≠ .ok → t.status = r.st ∧ t.uid = ⟨0, 0, 0, 0, 0⟩ ∧ t.cardType = 0) ∧
    (r.st = .ok → a.st ≠ .ok → t.status = a.st ∧ t.uid = ⟨0, 0, 0, 0, 0⟩ ∧ t.cardType = 0) ∧
    (r.st = .ok → a.st = .ok → t.uid = a.uid)

/-- R119, R130: NoTag ends a CHECKCARD only where its REQUEST gave NoTag, the engine inside that REQUEST having ended in
Timeout, and only with REQ_SILENT_STATUS = NoTag; no later step gives NoTag. -/
def Obligations.NoTagComesFromASilentRequestOnly : Prop :=
  ∀ s : State, ∃ u r t : State,
    exec (.tocard .transceive)
      { s with
        uid := ⟨0, 0, 0, 0, 0⟩, cardType := 0, txbuf := s.txbuf.set 0 s.cfg.reqMode, txlen := 1
        bus := s.bus.afterWrite s.cfg.regBitFraming 0x07 } = .next u ∧
    exec (.request s.cfg.reqMode) { s with uid := ⟨0, 0, 0, 0, 0⟩, cardType := 0 } = .next r ∧
    exec .checkcard s = .next t ∧
    (t.status = .noTag → r.st = .noTag ∧ u.st = .timeout ∧ s.cfg.reqSilentStatus = .noTag) ∧
    (r.st = .noTag → t.status = .noTag)

/-- R128, R136 (a), R171: among the transactions of every CHECKCARD are the four FIFO writes of the halt frame, 50 00 and the
two CRC bytes as they stand, followed by the Transceive command; CRC is what the final state holds. -/
def Obligations.CheckcardPutsTheHaltFrameInTheFifo : Prop :=
  ∀ s : State, ∃ (t : State) (es : List Event) (before after : List Access),
    exec .checkcard s = .next t ∧ t.bus.trace = s.bus.trace ++ es ∧
    showsAccesses
      (before
        ++ ([.write s.cfg.regFifoData 0x50, .write s.cfg.regFifoData 0x00, .write s.cfg.regFifoData t.crcLo,
            .write s.cfg.regFifoData t.crcHi, .write s.cfg.regCommand s.cfg.cmdTransceive] : List Access)
        ++ after) es = true

/-- R138: COMPAREIDS writes STATUS with Ok if all five bytes agree, else Error; no transport event, nothing else changes. -/
def Obligations.CompareidsComparesFiveBytes : Prop :=
  ∀ s : State,
    exec .compareids s =
      .next { s with
        status :=
          if s.ida.b0 = s.idb.b0 ∧ s.ida.b1 = s.idb.b1 ∧ s.ida.b2 = s.idb.b2 ∧ s.ida.b3 = s.idb.b3 ∧ s.ida.b4 = s.idb.b4
          then .ok else .error }

/-- R162: IDLE makes no transport event and keeps every register. -/
def Obligations.IdleKeepsEverything : Prop :=
  ∀ s : State, exec .idle s = .next s

/-! ## All instructions -/

/-- R43, R80 (f), R144: no answer of the environment and no operand stops an instruction. -/
def Obligations.EveryInstructionCompletes : Prop :=
  ∀ (i : Instr) (s : State), ∃ t : State, exec i s = .next t

/-- R7, R27, R29: no instruction changes the configuration, the host's latched operands, the sequencer (a call and its return
leave it as it was, log 10) or the moves due. -/
def Obligations.InstructionsKeepWhatIsNotTheirs : Prop :=
  ∀ (i : Instr) (s t : State),
    exec i s = .next t →
      t.cfg = s.cfg ∧ t.seq = s.seq ∧ t.moves = s.moves ∧ t.ida = s.ida ∧ t.idb = s.idb ∧ t.opc = s.opc

/-- R13, R25, R26: STATUS is written by CHECKCARD and COMPAREIDS only, VER by VERSION only, UID by CHECKCARD and ANTICOLL
only, TYPE by CHECKCARD and SELECT only, CRC by CALCCRC and the operations that call it only. -/
def Obligations.ResultRegistersHaveTheirWriters : Prop :=
  ∀ (i : Instr) (s t : State),
    exec i s = .next t →
      (i ≠ .checkcard → i ≠ .compareids → t.status = s.status) ∧
      (i ≠ .version → t.ver = s.ver) ∧
      (i ≠ .checkcard → i ≠ .anticoll → t.uid = s.uid) ∧
      (i ≠ .checkcard → i ≠ .select → t.cardType = s.cardType) ∧
      (i ≠ .checkcard → i ≠ .select → i ≠ .halt → i ≠ .calccrc → t.crcLo = s.crcLo ∧ t.crcHi = s.crcHi)

/-- R48, R49, R58, R86: an instruction only adds to the event history, and what it adds is whole transactions and delays; the
select line is released after it if it was before. -/
def Obligations.InstructionsAddWholeTransactions : Prop :=
  ∀ (i : Instr) (s t : State),
    exec i s = .next t →
      (∃ (accesses : List Access) (es : List Event),
        t.bus.trace = s.bus.trace ++ es ∧ showsAccesses accesses es = true) ∧
      (s.bus.sel = false → t.bus.sel = false)

/-- R24, R83: TERR is set by the fault flag of any exchange and cleared only by INIT; every answer is used exactly once, in
order. -/
def Obligations.TerrIsStickyExceptForInit : Prop :=
  ∀ (i : Instr) (s t : State),
    exec i s = .next t →
      ∃ n : Nat,
        t.bus.xcount = s.bus.xcount + n ∧ t.bus.answers = s.bus.answers.drop n ∧
        t.bus.terr = ((i != .init && s.bus.terr) || s.bus.faultWithin n)

/-- R89, R155, vector Z5: two states that differ only in fault flags end, after the same instruction, in states that differ
only in fault flags: a transport fault changes no Status, no register but TERR and no transaction. -/
def Obligations.TransportFaultsAreAdvisory : Prop :=
  ∀ (i : Instr) (s s' t : State),
    eraseFaults s = eraseFaults s' → exec i s = .next t →
      ∃ t' : State, exec i s' = .next t' ∧ eraseFaults t = eraseFaults t'

/-! ## The host port and the sequencer -/

/-- R29, R77, R132: a start with BUSY = 0 latches OPC and the operands, sets BUSY and OPR, and the operation runs next. -/
def Obligations.StartIsAcceptedWhenIdle : Prop :=
  ∀ (s : State) (opc : BitVec 2) (a b : CardId) (ms : List Move),
    s.cfg.wf = true → s.seq.busy = false → s.moves = .start opc a b :: ms →
      ∃ (o : Opr) (i : Instr),
        step s =
          .next { s with
            opc := opc, ida := a, idb := b, moves := ms
            seq := { busy := true, opr := o, ph := [.instr i], ret := [] } } ∧
        (opc = 0 → o = .init ∧ i = .init) ∧ (opc = 1 → o = .version ∧ i = .version) ∧
        (opc = 2 → o = .checkcard ∧ i = .checkcard) ∧ (opc = 3 → o = .compareids ∧ i = .compareids)

/-- R132: "A `start` while `BUSY = 1` is ignored: it changes no state and produces no transport event." -/
def Obligations.StartIsIgnoredWhileBusy : Prop :=
  ∀ (s : State) (opc : BitVec 2) (a b : CardId) (ms : List Move),
    s.cfg.wf = true → s.seq.busy = true → s.moves = .start opc a b :: ms → step s = .next { s with moves := ms }

/-- R163, R164, R165: reset, idle or busy, sets every register to its reset value and emits one SelRelease if SEL was 1,
nothing otherwise; the event history, the environment and the configuration stay (log 3). -/
def Obligations.ResetEventClearsEveryRegister : Prop :=
  ∀ (s : State) (ms : List Move),
    s.cfg.wf = true → s.moves = .reset :: ms →
      step s =
        .next { State.resetWith s.cfg with
          bus :=
            { sel := false, terr := false, rdv := 0
              trace := if s.bus.sel = true then s.bus.trace ++ [.selRelease] else s.bus.trace
              answers := s.bus.answers, xcount := s.bus.xcount }
          moves := ms }

/-- R13, R40: the values after reset, the whole reset column of R13's table. PH at its start is the empty list of lines
(log 10). -/
def Obligations.ResetValuesAreThoseOfTheTable : Prop :=
  ∀ c : Cfg,
    let s := State.resetWith c
    s.txbuf = Vector.replicate 16 0x00 ∧ s.txlen = 0 ∧ s.rxbuf = Vector.replicate 16 0x00 ∧ s.rxlen = 0 ∧ s.lvl = 0 ∧
    s.lastb = 0 ∧ s.en = 0x00 ∧ s.wait = 0x00 ∧ s.irqv = 0x00 ∧ s.errv = 0x00 ∧ s.hit = false ∧ s.cnt = 0 ∧ s.idx = 0 ∧
    s.tmp = 0x00 ∧ s.crcLo = 0x00 ∧ s.crcHi = 0x00 ∧ s.uid = ⟨0, 0, 0, 0, 0⟩ ∧ s.cardType = 0x00 ∧ s.status = .ok ∧
    s.ver = 0x00 ∧ s.bus.terr = false ∧ s.seq.busy = false ∧ s.seq.opr = .idle ∧ s.seq.ph = [] ∧ s.seq.ret = [] ∧
    s.bus.sel = false ∧
    s.ida = ⟨0, 0, 0, 0, 0⟩ ∧ s.idb = ⟨0, 0, 0, 0, 0⟩ ∧ s.opc = 0

/-- R27 (d), R132: with no line and no caller left the operation ends: OPR <- IDLE, RET empty and BUSY <- 0 in one step, the
result registers kept. -/
def Obligations.OperationEndClearsBusy : Prop :=
  ∀ s : State,
    s.cfg.wf = true → s.moves = [] → s.seq.busy = true → s.seq.ph = [] → s.seq.ret = [] →
      step s = .next { s with seq := { busy := false, opr := .idle, ph := [], ret := [] } }

/-- A step runs the instruction of the next line, whole, when no host event is due (log 4), and IDLE when BUSY = 0. -/
def Obligations.StepRunsTheFetchedInstruction : Prop :=
  ∀ (s : State) (i : Instr) (rest : List Line),
    s.cfg.wf = true → s.moves = [] →
      (s.seq.busy = true → s.seq.ph = .instr i :: rest → step s = exec i { s with seq := { s.seq with ph := rest } }) ∧
      (s.seq.busy = false → step s = exec .idle s)

/-- A word that decodes under the machine's own configuration (R7), placed by `withFetchWord`, is what the very next step runs
(log 5). -/
def Obligations.PlacedWordRunsNext : Prop :=
  ∀ (s : State) (nbits w : Nat) (i : Instr),
    s.cfg.wf = true → decodeWordOf s.cfg nbits w = some i →
      step (s.withFetchWord nbits w) =
        exec i { s with
          seq := { busy := i != .idle, opr := placedOpr i, ph := [], ret := [] }
          moves := [] }

/-- R7, R80 (c), U1, U4, U8, D35: a configuration with two equal register addresses, another request mode or another silent
status is refused. -/
def Obligations.BadConfigurationIsRefused : Prop :=
  ∀ s : State,
    ¬ (s.cfg.registers.Nodup ∧ (s.cfg.reqMode = 0x26 ∨ s.cfg.reqMode = 0x52) ∧
        (s.cfg.reqSilentStatus = .noTag ∨ s.cfg.reqSilentStatus = .timeout)) →
      step s = .refused .badConfig

/-- R83: an exchange with the select line released is not legal; the sequencer stops there (log 15). -/
def Obligations.ExchangeNeedsTheSelectLine : Prop :=
  ∀ (s : State) (b : Byte) (keep : Bool) (rest : List Line),
    s.cfg.wf = true → s.moves = [] → s.seq.busy = true → s.seq.ph = .xchg b keep :: rest →
      (s.bus.sel = false → step s = .fault .xchgUnselected) ∧
      (s.bus.sel = true → ∃ t : State, step s = .next t ∧
        t.bus.trace = s.bus.trace ++ [.xchg b (s.bus.answerAt 0).byte] ∧
        t.bus.terr = (s.bus.terr || (s.bus.answerAt 0).fault) ∧ t.seq.ph = rest)

/-- R3, R27, R53: running an instruction one line and one transport event at a time ends, with the very state `exec` gives
it whole. -/
def Obligations.EngineMovesReachWhatTheInstructionGives : Prop :=
  ∀ (s t : State) (i : Instr) (rest : List Line),
    s.cfg.wf = true → s.seq.busy = true → s.seq.ph = .instr i :: rest →
      exec i { s with seq := { s.seq with ph := rest } } = .next t →
        ∃ n : Nat, Host.Core.run Sys2Proof.core n (withEngineMoves n s) = .next { t with moves := [] }

/-- R132, R136 (d), R181: every host operation the host starts ends, move by move, with BUSY = 0 and the results its
instruction gives. That it ends rests on the assumption R181 asks a model to state: every transport event completes (log 16). -/
def Obligations.HostOperationsEnd : Prop :=
  ∀ (s : State) (opc : BitVec 2) (a b : CardId),
    s.cfg.wf = true → s.seq.busy = false →
      ∃ (n : Nat) (u : State),
        exec (hostInstr opc)
          { s with
            opc := opc, ida := a, idb := b
            seq := { busy := true, opr := hostOpr opc, ph := [], ret := [] } } = .next u ∧
        Host.Core.run Sys2Proof.core (n + 1) { s with moves := .start opc a b :: List.replicate n .engine } =
          .next { u with seq := { busy := false, opr := .idle, ph := [], ret := [] }, moves := [] }

/-- R7, R58: no step changes the configuration or takes anything out of the event history. That a reset step keeps the history
is the model's choice (log 3): the spec does not say what a reset does to it. -/
def Obligations.StepsKeepConfigurationAndHistory : Prop :=
  ∀ s t : State, step s = .next t → t.cfg = s.cfg ∧ ∃ es : List Event, t.bus.trace = s.bus.trace ++ es

/-- R23, R27 (c), (d), R28, R86: every step keeps the invariant: SEL is 1 exactly inside a transaction, BUSY = 0 leaves
nothing to run, RET is never deeper than three, and UID[4] is the XOR of UID[0..3]. -/
def Obligations.StepsKeepTheInvariant : Prop :=
  ∀ s t : State, Machine.invariant s = true → step s = .next t → Machine.invariant t = true

/-- R40: the invariant holds at reset, under every configuration. -/
def Obligations.InvariantHoldsAtReset : Prop :=
  Machine.invariant State.reset = true ∧ ∀ c : Cfg, Machine.invariant (State.resetWith c) = true

/-- R43, R83, R144: under an accepted configuration a state that meets the invariant always has a next state: the engine
never stops and never exchanges a byte with select released. -/
def Obligations.SafeStatesNeverStop : Prop :=
  ∀ s : State, s.cfg.wf = true → Machine.invariant s = true → ∃ t : State, step s = .next t
end

