-- ==== Sys2Proof/Laws/State.lean ====
section
/-! SUPPORT. One lemma per field for the named updates of `State`: register accesses touch `bus` only, the sequencer's updates
touch `seq` only. -/

namespace Sys2Proof.Machine

/-! WriteReg (R84) -/

section
variable (a : Addr) (v : Byte) (s : State)

@[simp] theorem writeReg_cfg : (writeReg a v s).cfg = s.cfg := rfl
@[simp] theorem writeReg_txbuf : (writeReg a v s).txbuf = s.txbuf := rfl
@[simp] theorem writeReg_txlen : (writeReg a v s).txlen = s.txlen := rfl
@[simp] theorem writeReg_rxbuf : (writeReg a v s).rxbuf = s.rxbuf := rfl
@[simp] theorem writeReg_rxlen : (writeReg a v s).rxlen = s.rxlen := rfl
@[simp] theorem writeReg_lvl : (writeReg a v s).lvl = s.lvl := rfl
@[simp] theorem writeReg_lastb : (writeReg a v s).lastb = s.lastb := rfl
@[simp] theorem writeReg_en : (writeReg a v s).en = s.en := rfl
@[simp] theorem writeReg_wait : (writeReg a v s).wait = s.wait := rfl
@[simp] theorem writeReg_irqv : (writeReg a v s).irqv = s.irqv := rfl
@[simp] theorem writeReg_errv : (writeReg a v s).errv = s.errv := rfl
@[simp] theorem writeReg_hit : (writeReg a v s).hit = s.hit := rfl
@[simp] theorem writeReg_cnt : (writeReg a v s).cnt = s.cnt := rfl
@[simp] theorem writeReg_idx : (writeReg a v s).idx = s.idx := rfl
@[simp] theorem writeReg_tmp : (writeReg a v s).tmp = s.tmp := rfl
@[simp] theorem writeReg_crcLo : (writeReg a v s).crcLo = s.crcLo := rfl
@[simp] theorem writeReg_crcHi : (writeReg a v s).crcHi = s.crcHi := rfl
@[simp] theorem writeReg_uid : (writeReg a v s).uid = s.uid := rfl
@[simp] theorem writeReg_cardType : (writeReg a v s).cardType = s.cardType := rfl
@[simp] theorem writeReg_status : (writeReg a v s).status = s.status := rfl
@[simp] theorem writeReg_ver : (writeReg a v s).ver = s.ver := rfl
@[simp] theorem writeReg_ida : (writeReg a v s).ida = s.ida := rfl
@[simp] theorem writeReg_idb : (writeReg a v s).idb = s.idb := rfl
@[simp] theorem writeReg_opc : (writeReg a v s).opc = s.opc := rfl
@[simp] theorem writeReg_st : (writeReg a v s).st = s.st := rfl
@[simp] theorem writeReg_ckst : (writeReg a v s).ckst = s.ckst := rfl
@[simp] theorem writeReg_seq : (writeReg a v s).seq = s.seq := rfl
@[simp] theorem writeReg_moves : (writeReg a v s).moves = s.moves := rfl

end

/-! ReadReg (R85) -/

section
variable (a : Addr) (s : State)

@[simp] theorem readReg_cfg : (readReg a s).cfg = s.cfg := rfl
@[simp] theorem readReg_txbuf : (readReg a s).txbuf = s.txbuf := rfl
@[simp] theorem readReg_txlen : (readReg a s).txlen = s.txlen := rfl
@[simp] theorem readReg_rxbuf : (readReg a s).rxbuf = s.rxbuf := rfl
@[simp] theorem readReg_rxlen : (readReg a s).rxlen = s.rxlen := rfl
@[simp] theorem readReg_lvl : (readReg a s).lvl = s.lvl := rfl
@[simp] theorem readReg_lastb : (readReg a s).lastb = s.lastb := rfl
@[simp] theorem readReg_en : (readReg a s).en = s.en := rfl
@[simp] theorem readReg_wait : (readReg a s).wait = s.wait := rfl
@[simp] theorem readReg_irqv : (readReg a s).irqv = s.irqv := rfl
@[simp] theorem readReg_errv : (readReg a s).errv = s.errv := rfl
@[simp] theorem readReg_hit : (readReg a s).hit = s.hit := rfl
@[simp] theorem readReg_cnt : (readReg a s).cnt = s.cnt := rfl
@[simp] theorem readReg_idx : (readReg a s).idx = s.idx := rfl
@[simp] theorem readReg_tmp : (readReg a s).tmp = s.tmp := rfl
@[simp] theorem readReg_crcLo : (readReg a s).crcLo = s.crcLo := rfl
@[simp] theorem readReg_crcHi : (readReg a s).crcHi = s.crcHi := rfl
@[simp] theorem readReg_uid : (readReg a s).uid = s.uid := rfl
@[simp] theorem readReg_cardType : (readReg a s).cardType = s.cardType := rfl
@[simp] theorem readReg_status : (readReg a s).status = s.status := rfl
@[simp] theorem readReg_ver : (readReg a s).ver = s.ver := rfl
@[simp] theorem readReg_ida : (readReg a s).ida = s.ida := rfl
@[simp] theorem readReg_idb : (readReg a s).idb = s.idb := rfl
@[simp] theorem readReg_opc : (readReg a s).opc = s.opc := rfl
@[simp] theorem readReg_st : (readReg a s).st = s.st := rfl
@[simp] theorem readReg_ckst : (readReg a s).ckst = s.ckst := rfl
@[simp] theorem readReg_seq : (readReg a s).seq = s.seq := rfl
@[simp] theorem readReg_moves : (readReg a s).moves = s.moves := rfl

end

/-! Lines to run next (R27) -/

section
variable (ls : List Line) (s : State)

@[simp] theorem pushLines_cfg : (pushLines ls s).cfg = s.cfg := rfl
@[simp] theorem pushLines_txbuf : (pushLines ls s).txbuf = s.txbuf := rfl
@[simp] theorem pushLines_txlen : (pushLines ls s).txlen = s.txlen := rfl
@[simp] theorem pushLines_rxbuf : (pushLines ls s).rxbuf = s.rxbuf := rfl
@[simp] theorem pushLines_rxlen : (pushLines ls s).rxlen = s.rxlen := rfl
@[simp] theorem pushLines_lvl : (pushLines ls s).lvl = s.lvl := rfl
@[simp] theorem pushLines_lastb : (pushLines ls s).lastb = s.lastb := rfl
@[simp] theorem pushLines_en : (pushLines ls s).en = s.en := rfl
@[simp] theorem pushLines_wait : (pushLines ls s).wait = s.wait := rfl
@[simp] theorem pushLines_irqv : (pushLines ls s).irqv = s.irqv := rfl
@[simp] theorem pushLines_errv : (pushLines ls s).errv = s.errv := rfl
@[simp] theorem pushLines_hit : (pushLines ls s).hit = s.hit := rfl
@[simp] theorem pushLines_cnt : (pushLines ls s).cnt = s.cnt := rfl
@[simp] theorem pushLines_idx : (pushLines ls s).idx = s.idx := rfl
@[simp] theorem pushLines_tmp : (pushLines ls s).tmp = s.tmp := rfl
@[simp] theorem pushLines_crcLo : (pushLines ls s).crcLo = s.crcLo := rfl
@[simp] theorem pushLines_crcHi : (pushLines ls s).crcHi = s.crcHi := rfl
@[simp] theorem pushLines_uid : (pushLines ls s).uid = s.uid := rfl
@[simp] theorem pushLines_cardType : (pushLines ls s).cardType = s.cardType := rfl
@[simp] theorem pushLines_status : (pushLines ls s).status = s.status := rfl
@[simp] theorem pushLines_ver : (pushLines ls s).ver = s.ver := rfl
@[simp] theorem pushLines_ida : (pushLines ls s).ida = s.ida := rfl
@[simp] theorem pushLines_idb : (pushLines ls s).idb = s.idb := rfl
@[simp] theorem pushLines_opc : (pushLines ls s).opc = s.opc := rfl
@[simp] theorem pushLines_st : (pushLines ls s).st = s.st := rfl
@[simp] theorem pushLines_ckst : (pushLines ls s).ckst = s.ckst := rfl
@[simp] theorem pushLines_bus : (pushLines ls s).bus = s.bus := rfl
@[simp] theorem pushLines_moves : (pushLines ls s).moves = s.moves := rfl

end

/-! The next line taken off (R27) -/

section
variable (s : State)

@[simp] theorem dropLine_cfg : (dropLine s).cfg = s.cfg := rfl
@[simp] theorem dropLine_txbuf : (dropLine s).txbuf = s.txbuf := rfl
@[simp] theorem dropLine_txlen : (dropLine s).txlen = s.txlen := rfl
@[simp] theorem dropLine_rxbuf : (dropLine s).rxbuf = s.rxbuf := rfl
@[simp] theorem dropLine_rxlen : (dropLine s).rxlen = s.rxlen := rfl
@[simp] theorem dropLine_lvl : (dropLine s).lvl = s.lvl := rfl
@[simp] theorem dropLine_lastb : (dropLine s).lastb = s.lastb := rfl
@[simp] theorem dropLine_en : (dropLine s).en = s.en := rfl
@[simp] theorem dropLine_wait : (dropLine s).wait = s.wait := rfl
@[simp] theorem dropLine_irqv : (dropLine s).irqv = s.irqv := rfl
@[simp] theorem dropLine_errv : (dropLine s).errv = s.errv := rfl
@[simp] theorem dropLine_hit : (dropLine s).hit = s.hit := rfl
@[simp] theorem dropLine_cnt : (dropLine s).cnt = s.cnt := rfl
@[simp] theorem dropLine_idx : (dropLine s).idx = s.idx := rfl
@[simp] theorem dropLine_tmp : (dropLine s).tmp = s.tmp := rfl
@[simp] theorem dropLine_crcLo : (dropLine s).crcLo = s.crcLo := rfl
@[simp] theorem dropLine_crcHi : (dropLine s).crcHi = s.crcHi := rfl
@[simp] theorem dropLine_uid : (dropLine s).uid = s.uid := rfl
@[simp] theorem dropLine_cardType : (dropLine s).cardType = s.cardType := rfl
@[simp] theorem dropLine_status : (dropLine s).status = s.status := rfl
@[simp] theorem dropLine_ver : (dropLine s).ver = s.ver := rfl
@[simp] theorem dropLine_ida : (dropLine s).ida = s.ida := rfl
@[simp] theorem dropLine_idb : (dropLine s).idb = s.idb := rfl
@[simp] theorem dropLine_opc : (dropLine s).opc = s.opc := rfl
@[simp] theorem dropLine_st : (dropLine s).st = s.st := rfl
@[simp] theorem dropLine_ckst : (dropLine s).ckst = s.ckst := rfl
@[simp] theorem dropLine_bus : (dropLine s).bus = s.bus := rfl
@[simp] theorem dropLine_moves : (dropLine s).moves = s.moves := rfl

end

end Sys2Proof.Machine
end

