-- ==== Sys2Proof/Laws/Bus.lean ====
section
/-! SUPPORT. One transaction in closed form (R84, R85), and what a run of transactions does to the bus: `Bus.Ran`, which is
closed under composition and which every operation of the engine meets. -/

namespace Sys2Proof.Machine

theorem answer_eq_answerAt (b : Bus) : b.answer = b.answerAt 0 := by
  unfold Bus.answer Bus.answerAt
  cases b.answers <;> simp

/-- The answers seen after `n` of them were used are the later ones. -/
theorem answerAt_drop (b c : Bus) (n k : Nat) (ha : c.answers = b.answers.drop n) (hx : c.xcount = b.xcount + n) :
    c.answerAt k = b.answerAt (n + k) := by
  unfold Bus.answerAt
  rw [ha, hx, List.getElem?_drop, Nat.add_assoc]

theorem tail_tail_eq_drop (l : List Answer) : l.tail.tail = l.drop 2 := by
  rw [← List.drop_one, ← List.drop_one, List.drop_drop]

/-- The bus after select was asserted and one byte exchanged and dropped. -/
theorem firstExchange (t : Byte) (b : Bus) :
    let c := b.assertSel.xchg t false
    c.sel = true ∧ c.terr = (b.terr || (b.answerAt 0).fault) ∧ c.rdv = b.rdv ∧
    c.trace = b.trace ++ [.selAssert, .xchg t (b.answerAt 0).byte] ∧ c.answers = b.answers.tail ∧
    c.xcount = b.xcount + 1 ∧ c.answer = b.answerAt 1 := by
  have h : b.assertSel.answer = b.answerAt 0 := answer_eq_answerAt b
  refine ⟨rfl, ?_, rfl, ?_, rfl, rfl, ?_⟩
  · show (b.terr || b.assertSel.answer.fault) = _
    rw [h]
  · show (b.trace ++ [.selAssert]) ++ [.xchg t b.assertSel.answer.byte] = _
    rw [h, List.append_assoc]; rfl
  · rw [answer_eq_answerAt]
    exact answerAt_drop b _ 1 0 (List.drop_one).symm rfl

theorem write_eq_afterWrite (a : Addr) (v : Byte) (b : Bus) : b.write a v = b.afterWrite a v := by
  unfold Bus.write
  obtain ⟨_, ht, hr, hl, ha, hx, hn⟩ := firstExchange (wrAddrByte a) b
  generalize b.assertSel.xchg (wrAddrByte a) false = c at *
  simp only [Bus.releaseSel, Bus.xchg, Bus.afterWrite, ht, hr, hl, ha, hx, hn, tail_tail_eq_drop, List.append_assoc,
    wrAddrByte]
  rfl

theorem read_eq_afterRead (a : Addr) (b : Bus) : b.read a = b.afterRead a := by
  unfold Bus.read
  obtain ⟨_, ht, hr, hl, ha, hx, hn⟩ := firstExchange (rdAddrByte a) b
  generalize b.assertSel.xchg (rdAddrByte a) false = c at *
  simp only [Bus.releaseSel, Bus.xchg, Bus.afterRead, ht, hl, ha, hx, hn, tail_tail_eq_drop, List.append_assoc,
    rdAddrByte]
  rfl

theorem faultWithin_add (b c : Bus) (n m : Nat) (ha : c.answers = b.answers.drop n) (hx : c.xcount = b.xcount + n) :
    b.faultWithin (n + m) = (b.faultWithin n || c.faultWithin m) := by
  unfold Bus.faultWithin
  rw [List.range_add, List.any_append, List.any_map]
  congr 2
  funext k
  simp [answerAt_drop b c n k ha hx]

theorem showsAccesses_append (l l' : List Access) (es es' : List Event) (h : showsAccesses l es = true)
    (h' : showsAccesses l' es' = true) : showsAccesses (l ++ l') (es ++ es') = true := by
  fun_induction showsAccesses l es with
  | case1 es => simp_all
  | case2 a v l b _ d _ es ih => simp_all [showsAccesses]
  | case3 a v l b _ d r es ih => simp_all [showsAccesses]
  | case4 ms l ms' es ih => simp_all [showsAccesses]
  | case5 => simp_all

/-- The exchanges of an access. -/
def Access.exchanges : Access → Nat
  | .write _ _ => 2
  | .read _ _ => 2
  | .delay _ => 0

/-- The exchanges of a list of accesses. -/
def exchangesOf (l : List Access) : Nat := (l.map Access.exchanges).sum

/-- From bus `b` to bus `c` exactly the accesses `l` were made: the history grew by their transactions, their answers were
used up in order, TERR took their faults, and select is released if it was. -/
structure Bus.Ran (b c : Bus) (l : List Access) : Prop where
  trace : ∃ es, c.trace = b.trace ++ es ∧ showsAccesses l es = true
  xcount : c.xcount = b.xcount + exchangesOf l
  answers : c.answers = b.answers.drop (exchangesOf l)
  terr : c.terr = (b.terr || b.faultWithin (exchangesOf l))
  sel : b.sel = false → c.sel = false

theorem Bus.Ran.nil (b : Bus) : b.Ran b [] :=
  ⟨⟨[], by simp [showsAccesses]⟩, by simp [exchangesOf], by simp [exchangesOf],
    by simp [exchangesOf, Bus.faultWithin], id⟩

theorem Bus.Ran.append {b c d : Bus} {l l' : List Access} (h : b.Ran c l) (h' : c.Ran d l') : b.Ran d (l ++ l') := by
  obtain ⟨es, he, hs⟩ := h.trace
  obtain ⟨es', he', hs'⟩ := h'.trace
  have hx : exchangesOf (l ++ l') = exchangesOf l + exchangesOf l' := by simp [exchangesOf]
  refine ⟨⟨es ++ es', by rw [he', he, List.append_assoc], showsAccesses_append _ _ _ _ hs hs'⟩, ?_, ?_, ?_,
    fun z => h'.sel (h.sel z)⟩
  · rw [h'.xcount, h.xcount, hx, Nat.add_assoc]
  · rw [h'.answers, h.answers, hx, List.drop_drop]
  · rw [h'.terr, h.terr, hx, faultWithin_add b c _ _ h.answers h.xcount, Bool.or_assoc]

theorem Bus.Ran.of_eq {b c : Bus} {l l' : List Access} (h : b.Ran c l) (e : l = l') : b.Ran c l' := e ▸ h

theorem faultWithin_two (b : Bus) : b.faultWithin 2 = ((b.answerAt 0).fault || (b.answerAt 1).fault) := by
  simp [Bus.faultWithin, List.range_succ]

theorem afterWrite_ran (b : Bus) (a : Addr) (v : Byte) : b.Ran (b.afterWrite a v) [.write a v] :=
  ⟨⟨_, rfl, by simp [showsAccesses]⟩, rfl, rfl, by
    simp [Bus.afterWrite, exchangesOf, Access.exchanges, faultWithin_two, Bool.or_assoc], fun _ => rfl⟩

theorem afterRead_ran (b : Bus) (a : Addr) : b.Ran (b.afterRead a) [.read a (b.afterRead a).rdv] :=
  ⟨⟨_, rfl, by simp [showsAccesses, Bus.afterRead]⟩, rfl, rfl, by
    simp [Bus.afterRead, exchangesOf, Access.exchanges, faultWithin_two, Bool.or_assoc], fun _ => rfl⟩

theorem writeReg_ran (a : Addr) (v : Byte) (s : State) : s.bus.Ran (writeReg a v s).bus [.write a v] := by
  show s.bus.Ran (s.bus.write a v) _
  rw [write_eq_afterWrite]
  exact afterWrite_ran _ _ _

theorem readReg_ran (a : Addr) (s : State) : s.bus.Ran (readReg a s).bus [.read a (readReg a s).bus.rdv] := by
  show s.bus.Ran (s.bus.read a) [.read a (s.bus.read a).rdv]
  rw [read_eq_afterRead]
  exact afterRead_ran _ _

theorem delayMs_ran (ms : BitVec 16) (s : State) : s.bus.Ran (delayMs ms s).bus [.delay ms] :=
  ⟨⟨_, rfl, by simp [showsAccesses]⟩, rfl, by simp [exchangesOf, Access.exchanges, delayMs],
    by simp [exchangesOf, Access.exchanges, delayMs, Bus.faultWithin], id⟩

end Sys2Proof.Machine
end

