-- ==== Sys2Proof/Laws/Frames.lean ====
section
/-! SUPPORT. What the shared operations leave unchanged. A frame is an equation between two states with the written fields
erased, so that frames compose by rewriting: `eraseBus` for what an access writes, `eraseTocard` for TOCARD (R107),
`eraseCrc` for CALCCRC (R115), `eraseRun` for everything an instruction may write (R13). -/

namespace Sys2Proof.Machine

/-- The bus of an erased state; its values mean nothing. -/
abbrev Bus.blank : Bus := { sel := false, terr := false, rdv := 0, trace := [], answers := [], xcount := 0 }

/-- `s` without what TOCARD may write (R107). -/
def eraseTocard (s : State) : State :=
  { s with
    en := 0, wait := 0, rxbuf := Vector.replicate 16 0, rxlen := 0, cnt := 0, irqv := 0, hit := false, errv := 0
    tmp := 0, idx := 0, lvl := 0, lastb := 0, st := .ok, bus := Bus.blank }

/-- `s` without what CALCCRC may write (R115). -/
def eraseCrc (s : State) : State :=
  { s with
    tmp := 0, idx := 0, cnt := 0, irqv := 0, hit := false, crcLo := 0, crcHi := 0, st := .ok, bus := Bus.blank }

/-- `s` without what the FIFO load, the poll and read-modify-writes may write. -/
def eraseLoops (s : State) : State :=
  { s with tmp := 0, idx := 0, cnt := 0, irqv := 0, hit := false, bus := Bus.blank }

/-- `s` without any register an instruction may write: the configuration, the host's operands, the sequencer and the moves
due are left (R7, R27, R29). -/
def eraseRun (s : State) : State :=
  { State.resetWith s.cfg with ida := s.ida, idb := s.idb, opc := s.opc, seq := s.seq, moves := s.moves }

theorem eraseTocard_of_eraseLoops {s t : State} (h : eraseLoops t = eraseLoops s) : eraseTocard t = eraseTocard s := by
  simp only [eraseLoops, State.mk.injEq] at h
  simp [eraseTocard, h]

theorem eraseCrc_of_eraseLoops {s t : State} (h : eraseLoops t = eraseLoops s) : eraseCrc t = eraseCrc s := by
  simp only [eraseLoops, State.mk.injEq] at h
  simp [eraseCrc, h]

theorem eraseRun_of_eraseTocard {s t : State} (h : eraseTocard t = eraseTocard s) : eraseRun t = eraseRun s := by
  simp only [eraseTocard, State.mk.injEq] at h
  simp [eraseRun, h]

theorem eraseRun_of_eraseCrc {s t : State} (h : eraseCrc t = eraseCrc s) : eraseRun t = eraseRun s := by
  simp only [eraseCrc, State.mk.injEq] at h
  simp [eraseRun, h]

theorem eraseRun_of_eraseLoops {s t : State} (h : eraseLoops t = eraseLoops s) : eraseRun t = eraseRun s :=
  eraseRun_of_eraseTocard (eraseTocard_of_eraseLoops h)

@[simp] theorem eraseLoops_writeReg (a : Addr) (v : Byte) (s : State) : eraseLoops (writeReg a v s) = eraseLoops s := rfl
@[simp] theorem eraseLoops_readReg (a : Addr) (s : State) : eraseLoops (readReg a s) = eraseLoops s := rfl
@[simp] theorem eraseLoops_delayMs (ms : BitVec 16) (s : State) : eraseLoops (delayMs ms s) = eraseLoops s := rfl
@[simp] theorem eraseLoops_setBitMask (a : Addr) (m : Byte) (s : State) :
    eraseLoops (setBitMask a m s) = eraseLoops s := rfl
@[simp] theorem eraseLoops_clearBitMask (a : Addr) (m : Byte) (s : State) :
    eraseLoops (clearBitMask a m s) = eraseLoops s := rfl

@[simp] theorem eraseLoops_runItem (it : Item) (s : State) : eraseLoops (runItem it s) = eraseLoops s := by
  cases it <;> rfl

@[simp] theorem eraseLoops_runItems (l : List Item) (s : State) : eraseLoops (runItems l s) = eraseLoops s := by
  induction l generalizing s with
  | nil => rfl
  | cons it l ih => rw [runItems, ih, eraseLoops_runItem]

@[simp] theorem eraseLoops_runMicro (m : MicroOp) (s : State) : eraseLoops (runMicro m s) = eraseLoops s :=
  eraseLoops_runItem _ _

@[simp] theorem eraseLoops_issueCommand (k : ChipCmd) (s : State) : eraseLoops (issueCommand k s) = eraseLoops s := rfl

@[simp] theorem eraseLoops_loadFifo (n : Nat) (s : State) : eraseLoops (loadFifo n s) = eraseLoops s := by
  induction n generalizing s with
  | zero => rfl
  | succ n ih => rw [loadFifo, ih]; rfl

@[simp] theorem eraseLoops_loadFrame (s : State) : eraseLoops (loadFrame s) = eraseLoops s := by
  rw [loadFrame, eraseLoops_loadFifo]; rfl

@[simp] theorem eraseLoops_pollFor (k : PollKind) (n : Nat) (s : State) :
    eraseLoops (pollFor k n s) = eraseLoops s := by
  induction n generalizing s with
  | zero => rfl
  | succ n ih =>
    rw [pollFor]
    split
    · rfl
    · rw [ih]; rfl

@[simp] theorem eraseLoops_poll (k : PollKind) (s : State) : eraseLoops (poll k s) = eraseLoops s := by
  rw [poll, eraseLoops_pollFor]; rfl

@[simp] theorem eraseTocard_drainFifo (n : Nat) (s : State) : eraseTocard (drainFifo n s) = eraseTocard s := by
  induction n generalizing s with
  | zero => rfl
  | succ n ih => rw [drainFifo, ih]; simp only [eraseTocard, assign, readReg]

@[simp] theorem eraseTocard_drain (s : State) : eraseTocard (drain s) = eraseTocard s := by
  simp only [drain, eraseTocard_drainFifo]
  simp only [eraseTocard, drainHead, assign, readReg]

theorem eraseTocard_prelude (cmd : ChipCmd) (s : State) : eraseTocard (tocardPrelude cmd s) = eraseTocard s := by
  simp only [tocardPrelude]
  refine (eraseTocard_of_eraseLoops (t := _) ?_).trans (?_ : eraseTocard (assign .clearRx (assign (.masks cmd) s)) = _)
  · simp only [eraseLoops_runMicro]
  · rfl

theorem eraseLoops_issue (cmd : ChipCmd) (s : State) : eraseLoops (tocardIssue cmd s) = eraseLoops s := by
  unfold tocardIssue
  dsimp only
  split <;> simp

theorem eraseTocard_stop (s : State) : eraseTocard (tocardStop s) = eraseTocard s := by
  rw [← eraseTocard_of_eraseLoops (eraseLoops_runMicro .stopSend s)]
  simp only [tocardStop, eraseTocard, assign, readReg]

theorem eraseTocard_conclude (cmd : ChipCmd) (s : State) : eraseTocard (tocardConclude cmd s) = eraseTocard s := by
  unfold tocardConclude
  dsimp only
  split
  · rw [← show eraseTocard (drain (assign .judge s)) = eraseTocard s by
      rw [eraseTocard_drain]; simp only [eraseTocard, assign]]
    simp only [eraseTocard, assign]
  · simp only [eraseTocard, assign]

theorem eraseTocard_decide (cmd : ChipCmd) (s : State) : eraseTocard (tocardDecide cmd s) = eraseTocard s := by
  unfold tocardDecide
  split
  · rfl
  split
  · rfl
  split
  · rfl
  exact eraseTocard_conclude cmd s

/-- R107: what TOCARD leaves unchanged. -/
@[simp] theorem eraseTocard_tocard (cmd : ChipCmd) (s : State) : eraseTocard (tocard cmd s) = eraseTocard s := by
  unfold tocard
  rw [eraseTocard_decide, eraseTocard_stop, eraseTocard_of_eraseLoops (eraseLoops_poll .irq _),
    eraseTocard_of_eraseLoops (eraseLoops_issue cmd _), eraseTocard_prelude]

/-- R115: what CALCCRC leaves unchanged. -/
@[simp] theorem eraseCrc_calccrc (s : State) : eraseCrc (calccrc s) = eraseCrc s := by
  have h : eraseCrc (poll .crc (calccrcIssue s)) = eraseCrc s :=
    eraseCrc_of_eraseLoops (by simp [calccrcIssue])
  unfold calccrc
  dsimp only
  generalize poll .crc (calccrcIssue s) = t at h ⊢
  rw [← h]
  split <;> simp only [eraseCrc, assign, calccrcResult, readReg]

@[simp] theorem eraseRun_assign (a : Act) (s : State) : eraseRun (assign a s) = eraseRun s := by
  cases a
  case anticollCheck =>
    simp only [assign]
    split
    · split <;> simp only [eraseRun]
    · rfl
  case selectCheck =>
    simp only [assign]
    split
    · split <;> simp only [eraseRun]
    · rfl
  all_goals simp only [eraseRun, assign]

@[simp] theorem eraseRun_writeReg (a : Addr) (v : Byte) (s : State) : eraseRun (writeReg a v s) = eraseRun s := rfl
@[simp] theorem eraseRun_readReg (a : Addr) (s : State) : eraseRun (readReg a s) = eraseRun s := rfl
@[simp] theorem eraseRun_setBitMask (a : Addr) (m : Byte) (s : State) : eraseRun (setBitMask a m s) = eraseRun s := rfl
@[simp] theorem eraseRun_clearBitMask (a : Addr) (m : Byte) (s : State) :
    eraseRun (clearBitMask a m s) = eraseRun s := rfl

@[simp] theorem eraseRun_runItem (it : Item) (s : State) : eraseRun (runItem it s) = eraseRun s :=
  eraseRun_of_eraseLoops (eraseLoops_runItem it s)

@[simp] theorem eraseRun_runItems (l : List Item) (s : State) : eraseRun (runItems l s) = eraseRun s :=
  eraseRun_of_eraseLoops (eraseLoops_runItems l s)

@[simp] theorem eraseRun_issueCommand (k : ChipCmd) (s : State) : eraseRun (issueCommand k s) = eraseRun s := rfl

@[simp] theorem eraseRun_tocard (cmd : ChipCmd) (s : State) : eraseRun (tocard cmd s) = eraseRun s :=
  eraseRun_of_eraseTocard (eraseTocard_tocard cmd s)

@[simp] theorem eraseRun_calccrc (s : State) : eraseRun (calccrc s) = eraseRun s :=
  eraseRun_of_eraseCrc (eraseCrc_calccrc s)

@[simp] theorem eraseRun_sendRequestFrame (m : Byte) (s : State) :
    eraseRun (sendRequestFrame m s) = eraseRun s := by simp [sendRequestFrame]

@[simp] theorem eraseRun_sendAnticollFrame (s : State) : eraseRun (sendAnticollFrame s) = eraseRun s := by
  simp [sendAnticollFrame]

@[simp] theorem eraseRun_request (m : Byte) (s : State) : eraseRun (request m s) = eraseRun s := by simp [request]

@[simp] theorem eraseRun_anticoll (s : State) : eraseRun (anticoll s) = eraseRun s := by simp [anticoll]

@[simp] theorem eraseRun_select (s : State) : eraseRun (select s) = eraseRun s := by
  unfold select
  dsimp only
  split <;> simp [selectTransceive]

@[simp] theorem eraseRun_halt (s : State) : eraseRun (halt s) = eraseRun s := by simp [halt]

@[simp] theorem eraseRun_stepIfOk (f : State → State) (hf : ∀ s, eraseRun (f s) = eraseRun s) (s : State) :
    eraseRun (stepIfOk f s) = eraseRun s := by
  unfold stepIfOk
  split <;> simp [hf]

@[simp] theorem eraseRun_activate (s : State) : eraseRun (activate s) = eraseRun s := by simp [activate]

/-- What an erased state still shows. -/
theorem eraseRun_fields {s t : State} (h : eraseRun t = eraseRun s) :
    t.cfg = s.cfg ∧ t.seq = s.seq ∧ t.moves = s.moves ∧ t.ida = s.ida ∧ t.idb = s.idb ∧ t.opc = s.opc := by
  simp only [eraseRun, State.resetWith, State.mk.injEq] at h
  simp [h]

@[simp] theorem cfg_assign (a : Act) (s : State) : (assign a s).cfg = s.cfg :=
  (eraseRun_fields (eraseRun_assign a s)).1

@[simp] theorem cfg_runItem (it : Item) (s : State) : (runItem it s).cfg = s.cfg :=
  (eraseRun_fields (eraseRun_runItem it s)).1

@[simp] theorem cfg_runMicro (m : MicroOp) (s : State) : (runMicro m s).cfg = s.cfg := cfg_runItem _ s

@[simp] theorem cfg_loadFrame (s : State) : (loadFrame s).cfg = s.cfg :=
  (eraseRun_fields (eraseRun_of_eraseLoops (eraseLoops_loadFrame s))).1

@[simp] theorem cfg_poll (k : PollKind) (s : State) : (poll k s).cfg = s.cfg :=
  (eraseRun_fields (eraseRun_of_eraseLoops (eraseLoops_poll k s))).1

@[simp] theorem cfg_tocard (cmd : ChipCmd) (s : State) : (tocard cmd s).cfg = s.cfg :=
  (eraseRun_fields (eraseRun_tocard cmd s)).1

@[simp] theorem cfg_calccrc (s : State) : (calccrc s).cfg = s.cfg := (eraseRun_fields (eraseRun_calccrc s)).1

end Sys2Proof.Machine
end

