-- ==== Sys2Proof/Laws/Operands.lean ====
section
/-! SUPPORT. The bit tests (R33 to R36) as propositions, the buffers by index (R14, R16), and the frames laid out in TXBUF
(R67 to R71, R118 to R127) as plain stores. -/

namespace Sys2Proof.Machine

theorem anyBit_iff (b m : Byte) : anyBit b m = true ↔ b &&& m ≠ 0 := by simp [anyBit]

/-- R36: 0x1B is 0x13 and the collision bit 0x08. -/
theorem anyBit_errorMask (e : Byte) : anyBit e 0x1B = (anyBit e 0x13 || anyBit e 0x08) := by
  revert e; decide

theorem setIfInBounds_eq_set (v : Vector Byte 16) (i : Nat) (x : Byte) (h : i < 16) :
    v.setIfInBounds i x = v.set i x h := by
  ext j hj
  simp [Vector.getElem_setIfInBounds, Vector.getElem_set]

theorem rxAt_eq (s : State) (i : Nat) (h : i < 16) : s.rxAt i = s.rxbuf[i] := by
  simp [State.rxAt, h]

theorem assign_tx_one (m : Byte) (s : State) :
    assign (.tx [m] 1) s = { s with txbuf := s.txbuf.set 0 m, txlen := 1 } := by
  simp (disch := decide) [assign, putBytes, setIfInBounds_eq_set]

theorem assign_tx_two (a b : Byte) (s : State) :
    assign (.tx [a, b] 2) s = { s with txbuf := (s.txbuf.set 0 a).set 1 b, txlen := 2 } := by
  simp (disch := decide) [assign, putBytes, setIfInBounds_eq_set]

theorem assign_txSelect (s : State) :
    assign .txSelect s =
      { s with
        txbuf :=
          ((((((s.txbuf.set 0 0x93).set 1 0x70).set 2 s.uid.b0).set 3 s.uid.b1).set 4 s.uid.b2).set 5 s.uid.b3).set 6
            s.uid.b4
        txlen := 7 } := by
  simp (disch := decide) [assign, putBytes, setIfInBounds_eq_set, selectHead, CardId.bytes]

theorem assign_txCrc_select (s : State) :
    assign (.txCrc 7 9) s = { s with txbuf := (s.txbuf.set 7 s.crcLo).set 8 s.crcHi, txlen := 9 } := by
  simp (disch := decide) [assign, putBytes, setIfInBounds_eq_set]

theorem assign_txCrc_halt (s : State) :
    assign (.txCrc 2 4) s = { s with txbuf := (s.txbuf.set 2 s.crcLo).set 3 s.crcHi, txlen := 4 } := by
  simp (disch := decide) [assign, putBytes, setIfInBounds_eq_set]

/-- A framing write as one transaction (R118, R121). -/
theorem runItem_write (a : Addr) (v : Byte) (s : State) :
    runItem (.write a v) s = { s with bus := s.bus.afterWrite a v } := by
  simp only [runItem, writeReg, write_eq_afterWrite]

/-- R23: no assignment leaves an identifier with a wrong checksum. -/
theorem checksumOk_assign (a : Act) (s : State) (h : checksumOk s.uid = true) :
    checksumOk (assign a s).uid = true := by
  cases a
  case anticollCheck =>
    simp only [assign]
    split
    · split
      · assumption
      · exact h
    · exact h
  case selectCheck =>
    simp only [assign]
    split
    · split <;> exact h
    · exact h
  case clearCard => simp only [assign]; decide
  all_goals (simp only [assign]; exact h)

end Sys2Proof.Machine
end

