-- ==== Sys2Proof/Laws/Runs.lean ====
section
/-! SUPPORT. Which accesses each operation makes, and what its loops leave: the FIFO load (R95, R112), the poll (R97, R113),
the drain (R103), TOCARD (R92) and CALCCRC (R110). -/

namespace Sys2Proof.Machine

theorem bus_assign (a : Act) (s : State) (h : a ≠ .clearTerr) : (assign a s).bus = s.bus := by
  cases a
  case clearTerr => exact absurd rfl h
  case anticollCheck =>
    simp only [assign]
    split
    · split <;> simp only
    · rfl
  case selectCheck =>
    simp only [assign]
    split
    · split <;> simp only
    · rfl
  all_goals simp only [assign]

theorem setBitMask_eq (a : Addr) (m : Byte) (s : State) :
    setBitMask a m s =
      { s with
        tmp := (s.bus.answerAt 1).byte
        bus := (s.bus.afterRead a).afterWrite a ((s.bus.answerAt 1).byte ||| m) } := by
  simp only [setBitMask, assign, readReg, writeReg, write_eq_afterWrite, read_eq_afterRead]
  rfl

theorem clearBitMask_eq (a : Addr) (m : Byte) (s : State) :
    clearBitMask a m s =
      { s with
        tmp := (s.bus.answerAt 1).byte
        bus := (s.bus.afterRead a).afterWrite a ((s.bus.answerAt 1).byte &&& ~~~m) } := by
  simp only [clearBitMask, assign, readReg, writeReg, write_eq_afterWrite, read_eq_afterRead]
  rfl

theorem setBitMask_ran (a : Addr) (m : Byte) (s : State) :
    ∃ x, s.bus.Ran (setBitMask a m s).bus [.read a x, .write a (x ||| m)] := by
  rw [setBitMask_eq]
  exact ⟨_, (afterRead_ran s.bus a).append (afterWrite_ran _ a _)⟩

theorem clearBitMask_ran (a : Addr) (m : Byte) (s : State) :
    ∃ x, s.bus.Ran (clearBitMask a m s).bus [.read a x, .write a (x &&& ~~~m)] := by
  rw [clearBitMask_eq]
  exact ⟨_, (afterRead_ran s.bus a).append (afterWrite_ran _ a _)⟩

theorem runItem_ran (it : Item) (s : State) : ∃ l, itemShows it l ∧ s.bus.Ran (runItem it s).bus l := by
  cases it with
  | write a v => exact ⟨_, rfl, writeReg_ran a v s⟩
  | setBits a m =>
    obtain ⟨x, h⟩ := setBitMask_ran a m s
    exact ⟨_, ⟨x, rfl⟩, h⟩
  | clearBits a m =>
    obtain ⟨x, h⟩ := clearBitMask_ran a m s
    exact ⟨_, ⟨x, rfl⟩, h⟩
  | delay ms => exact ⟨_, rfl, delayMs_ran ms s⟩

theorem runItems_ran (l : List Item) (s : State) :
    ∃ ls, List.Forall₂ itemShows l ls ∧ s.bus.Ran (runItems l s).bus ls.flatten := by
  induction l generalizing s with
  | nil => exact ⟨[], .nil, Bus.Ran.nil _⟩
  | cons it l ih =>
    obtain ⟨x, hx, hr⟩ := runItem_ran it s
    obtain ⟨ls, hl, hr'⟩ := ih (runItem it s)
    exact ⟨x :: ls, .cons hx hl, hr.append hr'⟩

/-- The FIFO load from index `i`: TXBUF[i .. i+n-1] in order (R95). -/
theorem loadFifo_ran (n : Nat) (s : State) (h : s.idx.toNat + n ≤ 16) :
    s.bus.Ran (loadFifo n s).bus
        (((s.txbuf.toList.drop s.idx.toNat).take n).map (.write s.cfg.regFifoData)) ∧
      (loadFifo n s).idx.toNat = s.idx.toNat + n := by
  induction n generalizing s with
  | zero => exact ⟨by simpa [loadFifo] using Bus.Ran.nil _, rfl⟩
  | succ n ih =>
    have hi : (s.idx + 1).toNat = s.idx.toNat + 1 := by
      rw [BitVec.toNat_add]; simp; omega
    have hlt : s.idx.toNat < s.txbuf.toList.length := by simp; omega
    obtain ⟨hr, hidx⟩ := ih (assign .idxNext (writeReg s.cfg.regFifoData (s.txAt s.idx.toNat) s))
      (by show (s.idx + 1).toNat + n ≤ 16; omega)
    refine ⟨?_, ?_⟩
    · refine ((writeReg_ran s.cfg.regFifoData (s.txAt s.idx.toNat) s).append hr).of_eq ?_
      show _ :: ((s.txbuf.toList.drop (s.idx + 1).toNat).take n).map _ = _
      rw [hi, List.drop_eq_getElem_cons hlt, List.take_succ_cons, List.map_cons]
      congr 2
      have : s.idx.toNat < 16 := by omega
      simp [State.txAt, this]
    · rw [loadFifo, hidx]
      show (s.idx + 1).toNat + n = _
      omega

theorem loadFrame_ran (s : State) :
    s.bus.Ran (loadFrame s).bus ((s.txbuf.toList.take s.txlen.val).map (.write s.cfg.regFifoData)) := by
  have h := (loadFifo_ran s.txlen.val (assign .idxZero s) (by
    show (0 : BitVec 5).toNat + _ ≤ _; simp; omega)).1
  exact h

theorem issueCommand_ran (k : ChipCmd) (s : State) :
    s.bus.Ran (issueCommand k s).bus [.write s.cfg.regCommand (cmdCode s.cfg k)] := writeReg_ran _ _ s

/-- The poll loop with `n` reads left, HIT being 0 (R97, R113). -/
theorem pollFor_ran (k : PollKind) (n : Nat) (s : State) (hh : s.hit = false) (hc : s.cnt.toNat + n < 65536) :
    ∃ polls : List Byte,
      s.bus.Ran (pollFor k n s).bus (polls.map (.read (k.register s.cfg))) ∧
      polls.length ≤ n ∧ (pollFor k n s).cnt.toNat = s.cnt.toNat + polls.length ∧
      (∀ v ∈ polls.dropLast, terminates k s.wait v = false) ∧
      (pollFor k n s).irqv = polls.getLast?.getD s.irqv ∧
      (pollFor k n s).hit = (polls.getLast?.map (terminates k s.wait)).getD false ∧
      ((pollFor k n s).hit = false → polls.length = n) := by
  induction n generalizing s with
  | zero => exact ⟨[], Bus.Ran.nil _, by simp, by simp [pollFor], by simp, by simp [pollFor], by simp [pollFor, hh], by simp⟩
  | succ n ih =>
    have hr : s.bus.Ran (pollRead k s).bus [.read (k.register s.cfg) (pollRead k s).irqv] := readReg_ran _ s
    have hcnt : (pollRead k s).cnt.toNat = s.cnt.toNat + 1 := by
      show (s.cnt + 1).toNat = _
      rw [BitVec.toNat_add]; simp; omega
    have hw : (pollRead k s).wait = s.wait := rfl
    have hcfg : (pollRead k s).cfg = s.cfg := rfl
    have hhit : (pollRead k s).hit = terminates k s.wait (pollRead k s).irqv := by
      show (s.hit || _) = _
      rw [hh]; rfl
    rw [pollFor]
    generalize pollRead k s = t at *
    by_cases ht : t.hit = true
    · rw [if_pos ht]
      refine ⟨[t.irqv], hr, by simp, by simpa using hcnt, by simp, by simp, by simpa using hhit, ?_⟩
      intro h; simp [ht] at h
    · rw [if_neg ht]
      rw [Bool.not_eq_true] at ht
      obtain ⟨ps, h1, h2, h3, h4, h5, h6, h7⟩ := ih t ht (by omega)
      rw [hcfg] at h1
      rw [hw] at h4 h6
      refine ⟨t.irqv :: ps, hr.append h1, by simp; omega, by rw [h3, hcnt]; simp; omega, ?_, ?_, ?_, ?_⟩
      · intro v hv
        cases ps with
        | nil => simp at hv
        | cons p ps =>
          rw [List.dropLast_cons_cons] at hv
          rcases List.mem_cons.mp hv with rfl | hv
          · rw [← hhit]; exact ht
          · exact h4 v hv
      · cases ps with
        | nil => simpa using h5
        | cons p ps => rw [h5, List.getLast?_cons_cons, List.getLast?_eq_some_getLast (List.cons_ne_nil p ps)]; rfl
      · cases ps with
        | nil => rw [h6]; simp [← hhit, ht]
        | cons p ps => rw [h6]; simp [List.getLast?_cons_cons]
      · intro h
        simp [h7 h]

/-- The poll as TOCARD and CALCCRC run it (R97, R113). -/
theorem poll_ran (k : PollKind) (s : State) :
    ∃ polls : List Byte,
      s.bus.Ran (poll k s).bus (polls.map (.read (k.register s.cfg))) ∧
      polls.length = (poll k s).cnt.toNat ∧ (poll k s).cnt.toNat ≤ (k.budget s.cfg).toNat ∧
      (∀ v ∈ polls.dropLast, terminates k s.wait v = false) ∧
      (poll k s).irqv = polls.getLast?.getD 0x00 ∧
      (poll k s).hit = terminates k s.wait (poll k s).irqv ∧
      ((poll k s).hit = false → (poll k s).cnt = k.budget s.cfg) := by
  obtain ⟨ps, h1, h2, h3, h4, h5, h6, h7⟩ := pollFor_ran k (k.budget s.cfg).toNat (assign .pollInit s) rfl (by
    show (0 : BitVec 16).toNat + _ < _
    have := (k.budget s.cfg).isLt
    simp; omega)
  have h3' : (poll k s).cnt.toNat = ps.length := by
    rw [poll, h3]; show (0 : BitVec 16).toNat + _ = _; simp
  refine ⟨ps, h1, h3'.symm, by rw [h3']; exact h2, h4, h5, ?_, ?_⟩
  · show (pollFor _ _ _).hit = terminates k s.wait (pollFor _ _ _).irqv
    rw [h6, h5]
    cases hp : ps.getLast? with
    | none => cases k <;> simp [terminates, anyBit, assign]
    | some v => simp [assign]
  · intro h
    apply BitVec.eq_of_toNat_eq
    rw [h3', h7 h]

/-- The drain's data loop from index `i`: `n` bytes read and stored in order (R103). -/
theorem drainFifo_ran (n : Nat) (s : State) (h : s.idx.toNat + n ≤ 16) :
    ∃ vals : List Byte,
      vals.length = n ∧ s.bus.Ran (drainFifo n s).bus (vals.map (.read s.cfg.regFifoData)) ∧
      (drainFifo n s).rxbuf.toList =
        s.rxbuf.toList.take s.idx.toNat ++ vals ++ s.rxbuf.toList.drop (s.idx.toNat + n) ∧
      (drainFifo n s).lvl = s.lvl ∧ (drainFifo n s).lastb = s.lastb ∧ (drainFifo n s).rxlen = s.rxlen ∧
      (drainFifo n s).st = s.st ∧ (drainFifo n s).errv = s.errv ∧ (drainFifo n s).hit = s.hit ∧
      (drainFifo n s).irqv = s.irqv ∧ (drainFifo n s).cnt = s.cnt ∧ (drainFifo n s).en = s.en ∧
      (drainFifo n s).wait = s.wait := by
  induction n generalizing s with
  | zero =>
    refine ⟨[], rfl, Bus.Ran.nil _, ?_, rfl, rfl, rfl, rfl, rfl, rfl, rfl, rfl, rfl, rfl⟩
    simp [drainFifo]
  | succ n ih =>
    have hi : (s.idx + 1).toNat = s.idx.toNat + 1 := by
      rw [BitVec.toNat_add]; simp; omega
    obtain ⟨vs, hl, hr, hb, hrest⟩ :=
      ih (assign .idxNext (assign .rxPut (readReg s.cfg.regFifoData s)))
        (by show (s.idx + 1).toNat + n ≤ 16; omega)
    refine ⟨(readReg s.cfg.regFifoData s).bus.rdv :: vs, by simp [hl], (readReg_ran _ s).append hr, ?_, hrest⟩
    rw [drainFifo, hb]
    show List.take (s.idx + 1).toNat (s.rxbuf.setIfInBounds s.idx.toNat (readReg s.cfg.regFifoData s).bus.rdv).toList ++ vs ++
      List.drop ((s.idx + 1).toNat + n) (s.rxbuf.setIfInBounds s.idx.toNat (readReg s.cfg.regFifoData s).bus.rdv).toList = _
    rw [hi, Vector.toList_setIfInBounds]
    have hlt : s.idx.toNat < s.rxbuf.toList.length := by simp; omega
    rw [List.take_succ_eq_append_getElem (by simpa using hlt), List.take_set_of_le (by omega),
      List.drop_set_of_lt (by omega)]
    simp [List.append_assoc, Nat.add_assoc, Nat.add_comm 1 n]

end Sys2Proof.Machine
end

