-- ==== Sys2Proof/Laws/Engine.lean ====
section
/-! SUPPORT. TOCARD and CALCCRC stage by stage: the accesses of each stage and the latches it leaves (R92 to R103, R110 to
R114). -/

namespace Sys2Proof.Machine

/-- What an erased state shows of the registers the loops do not write. -/
theorem eraseLoops_fields {s t : State} (h : eraseLoops t = eraseLoops s) :
    t.cfg = s.cfg ∧ t.txbuf = s.txbuf ∧ t.txlen = s.txlen ∧ t.rxbuf = s.rxbuf ∧ t.rxlen = s.rxlen ∧ t.lvl = s.lvl ∧
    t.lastb = s.lastb ∧ t.en = s.en ∧ t.wait = s.wait ∧ t.errv = s.errv ∧ t.crcLo = s.crcLo ∧ t.crcHi = s.crcHi ∧
    t.st = s.st := by
  simp only [eraseLoops, State.mk.injEq] at h
  simp [h]

/-- Steps 1 and 2 (R94). -/
theorem tocardPrelude_ran (cmd : ChipCmd) (s : State) :
    (∃ x : Byte,
      s.bus.Ran (tocardPrelude cmd s).bus
        [.write s.cfg.regComIen (enableMask cmd ||| 0x80), .write s.cfg.regCommand s.cfg.cmdIdle,
         .read s.cfg.regColl x, .write s.cfg.regColl (x &&& ~~~(0x80 : Byte)), .write s.cfg.regComIrq 0x7F,
         .write s.cfg.regFifoLevel 0x80]) ∧
    (tocardPrelude cmd s).cfg = s.cfg ∧ (tocardPrelude cmd s).txbuf = s.txbuf ∧
    (tocardPrelude cmd s).txlen = s.txlen ∧ (tocardPrelude cmd s).rxbuf = Vector.replicate 16 0 ∧
    (tocardPrelude cmd s).rxlen = 0 ∧ (tocardPrelude cmd s).lvl = s.lvl ∧ (tocardPrelude cmd s).lastb = s.lastb ∧
    (tocardPrelude cmd s).en = enableMask cmd ∧ (tocardPrelude cmd s).wait = waitMask cmd := by
  refine ⟨?_, ?_⟩
  · let a := assign .clearRx (assign (.masks cmd) s)
    let b := writeReg s.cfg.regCommand s.cfg.cmdIdle (writeReg s.cfg.regComIen (enableMask cmd ||| 0x80) a)
    let c := clearBitMask s.cfg.regColl 0x80 b
    have h1 : s.bus.Ran b.bus _ :=
      (writeReg_ran s.cfg.regComIen (enableMask cmd ||| 0x80) a).append (writeReg_ran s.cfg.regCommand s.cfg.cmdIdle _)
    obtain ⟨x, h2⟩ := clearBitMask_ran s.cfg.regColl 0x80 b
    have h3 : c.bus.Ran (writeReg s.cfg.regFifoLevel 0x80 (writeReg s.cfg.regComIrq 0x7F c)).bus _ :=
      (writeReg_ran s.cfg.regComIrq 0x7F c).append (writeReg_ran s.cfg.regFifoLevel 0x80 _)
    exact ⟨x, (h1.append h2).append h3⟩
  · have h := eraseLoops_fields
      (show eraseLoops (tocardPrelude cmd s) = eraseLoops (assign .clearRx (assign (.masks cmd) s)) by
        simp [tocardPrelude])
    simp only [assign] at h
    simp [h]

/-- Steps 3 and 4 (R95, R96). -/
theorem tocardIssue_ran (cmd : ChipCmd) (s : State) :
    ∃ y : Byte,
      s.bus.Ran (tocardIssue cmd s).bus
        ((s.txbuf.toList.take s.txlen.val).map (Access.write s.cfg.regFifoData)
          ++ ([.write s.cfg.regCommand (cmdCode s.cfg cmd)] : List Access)
          ++ ((if cmd = .transceive then
                [.read s.cfg.regBitFraming y, .write s.cfg.regBitFraming (y ||| 0x80)] else []) : List Access)) := by
  have hi : (loadFrame s).bus.Ran (issueCommand cmd (loadFrame s)).bus [.write s.cfg.regCommand (cmdCode s.cfg cmd)] := by
    have := issueCommand_ran cmd (loadFrame s)
    rwa [cfg_loadFrame] at this
  have h := (loadFrame_ran s).append hi
  by_cases hc : cmd = .transceive
  · obtain ⟨y, hy⟩ := setBitMask_ran (issueCommand cmd (loadFrame s)).cfg.regBitFraming 0x80 (issueCommand cmd (loadFrame s))
    have e : (issueCommand cmd (loadFrame s)).cfg = s.cfg := cfg_loadFrame s
    rw [e] at hy
    refine ⟨y, ?_⟩
    have := h.append hy
    simp only [tocardIssue, hc, if_true, runMicro, MicroOp.expansion, runItem] at *
    rw [e]
    exact this
  · refine ⟨0, ?_⟩
    simpa [tocardIssue, hc] using h

/-- Step 6 and the read of step 7 (R98, R99). -/
theorem tocardStop_ran (s : State) :
    ∃ z : Byte,
      s.bus.Ran (tocardStop s).bus
        [.read s.cfg.regBitFraming z, .write s.cfg.regBitFraming (z &&& ~~~(0x80 : Byte)),
         .read s.cfg.regError (tocardStop s).errv] := by
  obtain ⟨z, hz⟩ := clearBitMask_ran s.cfg.regBitFraming 0x80 s
  refine ⟨z, hz.append ?_⟩
  exact readReg_ran _ _

theorem tocardStop_latches (s : State) :
    (tocardStop s).cnt = s.cnt ∧ (tocardStop s).hit = s.hit ∧ (tocardStop s).irqv = s.irqv ∧
    (tocardStop s).en = s.en ∧ (tocardStop s).wait = s.wait ∧ (tocardStop s).rxbuf = s.rxbuf ∧
    (tocardStop s).rxlen = s.rxlen ∧ (tocardStop s).lvl = s.lvl ∧ (tocardStop s).lastb = s.lastb ∧
    (tocardStop s).cfg = s.cfg := by
  simp [tocardStop, runMicro, MicroOp.expansion, runItem, clearBitMask_eq, assign, readReg]

/-- The response length as a number of bits (R73, R103). -/
theorem responseBits_toNat (l : BitVec 8) (b : BitVec 3) (h : 1 ≤ l.toNat) :
    (responseBits l b).toNat = if b.toNat = 0 then 8 * l.toNat else 8 * (l.toNat - 1) + b.toNat := by
  have hl := l.isLt
  have hb := b.isLt
  unfold responseBits
  by_cases hz : b = 0
  · subst hz
    simp [BitVec.toNat_mul]; omega
  · have : b.toNat ≠ 0 := fun e => hz (BitVec.eq_of_toNat_eq (by simpa using e))
    have e1 : (BitVec.setWidth 16 l - 1).toNat = l.toNat - 1 := by
      rw [BitVec.toNat_sub]; simp; omega
    simp only [bne_iff_ne, ne_eq, hz, not_false_eq_true, if_true, this, if_false]
    rw [BitVec.toNat_add, BitVec.toNat_mul, e1]
    simp; omega

/-- The drain (R103): level, control, then the data bytes; the latches and the response it leaves. -/
theorem drain_ran (s : State) :
    ∃ n c : Byte,
      s.bus.Ran (drain s).bus
        (.read s.cfg.regFifoLevel n :: .read s.cfg.regControl c ::
          ((drain s).rxbuf.toList.take (drain s).lvl.toNat).map (.read s.cfg.regFifoData)) ∧
      (drain s).lvl.toNat = min (max n.toNat 1) 16 ∧ (drain s).lastb.toNat = c.toNat % 8 ∧
      (drain s).rxlen.toNat =
        (if c.toNat % 8 = 0 then 8 * max n.toNat 1 else 8 * (max n.toNat 1 - 1) + c.toNat % 8) ∧
      (drain s).rxbuf.toList.drop (drain s).lvl.toNat = s.rxbuf.toList.drop (drain s).lvl.toNat ∧
      (drain s).st = s.st ∧ (drain s).errv = s.errv ∧ (drain s).hit = s.hit ∧ (drain s).irqv = s.irqv ∧
      (drain s).cnt = s.cnt ∧ (drain s).en = s.en ∧ (drain s).wait = s.wait := by
  obtain ⟨n, r, h1, hn⟩ : ∃ n r, s.bus.Ran r [.read s.cfg.regFifoLevel n] ∧
      assign .lvl (readReg s.cfg.regFifoLevel s) = { s with lvl := n, bus := r } := ⟨_, _, readReg_ran _ s, by rfl⟩
  obtain ⟨c, q, h2, hc⟩ : ∃ c q, r.Ran q [.read s.cfg.regControl c] ∧
      assign .lastb (readReg s.cfg.regControl { s with lvl := n, bus := r }) =
        { s with lvl := n, lastb := c.setWidth 3, bus := q } := ⟨_, _, readReg_ran _ { s with lvl := n, bus := r }, by rfl⟩
  have hfl : (levelFloor n).toNat = max n.toNat 1 := by
    unfold levelFloor
    split
    · rename_i h; rw [h]; rfl
    · rename_i h
      have : n.toNat ≠ 0 := fun e => h (BitVec.eq_of_toNat_eq (by simpa using e))
      omega
  have hcap : (levelCap (levelFloor n)).toNat = min (max n.toNat 1) 16 := by
    unfold levelCap
    split
    · rename_i h; have h' : 16 < (levelFloor n).toNat := h; simp; omega
    · rename_i h; have h' : ¬ 16 < (levelFloor n).toNat := h; omega
  have hd : drainHead s =
      { s with
        lvl := levelCap (levelFloor n), lastb := c.setWidth 3, idx := 0
        rxlen := responseBits (levelFloor n) (c.setWidth 3), bus := q } := by
    unfold drainHead
    dsimp only
    rw [hn]
    simp only at hc ⊢
    rw [hc]
    rfl
  obtain ⟨vals, hlen, hr, hbuf, k1, k2, k3, k4, k5, k6, k7, k8, k9, k10⟩ :=
    drainFifo_ran (drainHead s).lvl.toNat (drainHead s) (by rw [hd]; simp only [hcap]; simp)
  change (drain s).lvl = _ at k1
  change (drain s).lastb = _ at k2
  change (drain s).rxlen = _ at k3
  change Bus.Ran _ (drain s).bus _ at hr
  change (drain s).rxbuf.toList = _ at hbuf
  change (drain s).st = _ at k4
  change (drain s).errv = _ at k5
  change (drain s).hit = _ at k6
  change (drain s).irqv = _ at k7
  change (drain s).cnt = _ at k8
  change (drain s).en = _ at k9
  change (drain s).wait = _ at k10
  generalize drain s = t at *
  rw [hd] at k1 k2 k3 hr hbuf k4 k5 k6 k7 k8 k9 k10 hlen
  simp only at k1 k2 k3 hr hbuf k4 k5 k6 k7 k8 k9 k10 hlen
  rw [show (0 : BitVec 5).toNat = 0 from rfl, List.take_zero, List.nil_append, Nat.zero_add] at hbuf
  have htake : t.rxbuf.toList.take t.lvl.toNat = vals := by
    rw [hbuf, k1, ← hlen]; simp
  have h3 : (c.setWidth 3 : BitVec 3).toNat = c.toNat % 8 := by simp
  refine ⟨n, c, ?_, by rw [k1, hcap], by rw [k2, h3], ?_, ?_, k4, k5, k6, k7, k8, k9, k10⟩
  · rw [htake]
    exact (h1.append h2).append hr
  · rw [k3, responseBits_toNat _ _ (by rw [hfl]; omega), hfl, h3]
  · rw [hbuf, k1, ← hlen]; simp

theorem statusIs_eq (v : Status) (s : State) : assign (.statusIs v) s = { s with st := v } := rfl

theorem collision_eq (s : State) : assign .collision s = { s with st := afterCollision s.errv s.st } := rfl

/-- Steps 7 to 10 (R99 to R104): the latched bytes are kept, the Status follows the priority, and the response is drained
exactly when the Status is Ok and the command Transceive. -/
theorem tocardDecide_ran (cmd : ChipCmd) (s : State) :
    let t := tocardDecide cmd s
    t.errv = s.errv ∧ t.hit = s.hit ∧ t.irqv = s.irqv ∧ t.cnt = s.cnt ∧ t.en = s.en ∧ t.wait = s.wait ∧
    t.st =
      (if s.errv &&& 0x13 ≠ 0 then .error
       else if s.hit = false then .timeout
       else if s.irqv &&& 0x01 ≠ 0 ∧ s.irqv &&& s.wait = 0 then .timeout
       else if s.errv &&& 0x08 ≠ 0 then .error
       else .ok) ∧
    (t.st = .ok ∧ cmd = .transceive → ∃ n c : Byte,
      s.bus.Ran t.bus
        (.read s.cfg.regFifoLevel n :: .read s.cfg.regControl c ::
          (t.rxbuf.toList.take t.lvl.toNat).map (.read s.cfg.regFifoData)) ∧
      t.lvl.toNat = min (max n.toNat 1) 16 ∧ t.lastb.toNat = c.toNat % 8 ∧
      t.rxlen.toNat =
        (if c.toNat % 8 = 0 then 8 * max n.toNat 1 else 8 * (max n.toNat 1 - 1) + c.toNat % 8) ∧
      t.rxbuf.toList.drop t.lvl.toNat = s.rxbuf.toList.drop t.lvl.toNat) ∧
    (¬ (t.st = .ok ∧ cmd = .transceive) →
      t.bus = s.bus ∧ t.rxbuf = s.rxbuf ∧ t.rxlen = s.rxlen ∧ t.lvl = s.lvl ∧ t.lastb = s.lastb) := by
  have split1B := anyBit_errorMask
  dsimp only
  by_cases h1 : anyBit s.errv 0x13 = true
  · have h1' := (anyBit_iff _ _).1 h1
    rw [show tocardDecide cmd s = assign (.statusIs .error) s from if_pos h1, statusIs_eq]
    rw [if_pos h1']
    simp
  have h1' : ¬ (s.errv &&& 0x13 ≠ 0) := by simpa [anyBit] using h1
  by_cases h2 : s.hit = false
  · rw [show tocardDecide cmd s = assign (.statusIs .timeout) s from
      (if_neg h1).trans (if_pos (by show (!s.hit) = true; rw [h2]; rfl)), statusIs_eq]
    rw [if_neg h1', if_pos h2]
    simp
  have h2' : ¬ (!s.hit) = true := by simpa using h2
  by_cases h3 : timerWithoutWait s.wait s.irqv = true
  · have h3' : s.irqv &&& 0x01 ≠ 0 ∧ s.irqv &&& s.wait = 0 := by simpa [timerWithoutWait, anyBit] using h3
    rw [show tocardDecide cmd s = assign (.statusIs .timeout) s from
      (if_neg h1).trans ((if_neg h2').trans (if_pos h3)), statusIs_eq]
    rw [if_neg h1', if_neg h2, if_pos h3']
    simp
  have h3' : ¬ (s.irqv &&& 0x01 ≠ 0 ∧ s.irqv &&& s.wait = 0) := by
    simpa [timerWithoutWait, anyBit] using h3
  rw [show tocardDecide cmd s = tocardConclude cmd s from (if_neg h1).trans ((if_neg h2').trans (if_neg h3))]
  rw [if_neg h1', if_neg h2, if_neg h3']
  have h1f : anyBit s.errv 0x13 = false := by simpa using h1
  have es : assign .judge s = { s with st := verdict s.errv } := rfl
  by_cases h8 : anyBit s.errv 0x08 = true
  · have h8' := (anyBit_iff _ _).1 h8
    have e : tocardConclude cmd s = { s with st := .error } := by
      unfold tocardConclude
      rw [es]
      dsimp only
      rw [split1B, h8, Bool.or_true, Bool.not_true, Bool.and_false, if_neg (by simp), collision_eq,
        show ∀ v, afterCollision s.errv v = .error by intro v; unfold afterCollision; rw [h8]; rfl]
    rw [e, if_pos h8']
    simp
  · have h8f : anyBit s.errv 0x08 = false := by simpa using h8
    have h8' : ¬ (s.errv &&& 0x08 ≠ 0) := by simpa [anyBit] using h8
    have h1B : anyBit s.errv 0x1B = false := by rw [split1B, h1f, h8f]; rfl
    have hv : verdict s.errv = .ok := by unfold verdict; rw [h1B]; rfl
    rw [hv] at es
    rw [if_neg h8']
    by_cases hc : cmd = .transceive
    · have e : tocardConclude cmd s = assign .collision (drain { s with st := .ok }) := by
        unfold tocardConclude
        rw [es]
        dsimp only
        rw [h1B, hc]; rfl
      obtain ⟨n, c, r1, r2, r3, r4, r5, r6, r7, r8, r9, r10, r11, r12⟩ := drain_ran { s with st := .ok }
      rw [e]
      generalize drain { s with st := .ok } = t at *
      simp only at r1 r2 r3 r4 r5 r6 r7 r8 r9 r10 r11 r12
      simp only [collision_eq]
      refine ⟨r7, r8, r9, r10, r11, r12, ?_, fun _ => ⟨n, c, r1, r2, r3, r4, r5⟩, ?_⟩
      · rw [r7, r6]; unfold afterCollision; rw [h8f]; rfl
      · intro h; exfalso; apply h; refine ⟨?_, hc⟩
        rw [r7, r6]; unfold afterCollision; rw [h8f]; rfl
    · have e : tocardConclude cmd s = { s with st := .ok } := by
        unfold tocardConclude
        rw [es]
        dsimp only
        rw [decide_eq_false hc, Bool.false_and, if_neg (by simp), collision_eq,
          show afterCollision s.errv .ok = .ok by unfold afterCollision; rw [h8f]; rfl]
      rw [e]
      simp [hc]

/-- CALCCRC up to its poll (R111, R112). -/
theorem calccrcIssue_ran (s : State) :
    ∃ x : Byte,
      s.bus.Ran (calccrcIssue s).bus
        (([.read s.cfg.regDivIrq x, .write s.cfg.regDivIrq (x &&& ~~~(0x04 : Byte)), .write s.cfg.regFifoLevel 0x80,
           .write s.cfg.regCommand s.cfg.cmdIdle] : List Access)
          ++ (s.txbuf.toList.take s.txlen.val).map (Access.write s.cfg.regFifoData)
          ++ ([.write s.cfg.regCommand s.cfg.cmdCalccrc] : List Access)) := by
  obtain ⟨x, h1⟩ := clearBitMask_ran s.cfg.regDivIrq 0x04 s
  have ea : (clearBitMask s.cfg.regDivIrq 0x04 s).cfg = s.cfg ∧ (clearBitMask s.cfg.regDivIrq 0x04 s).txbuf = s.txbuf ∧
      (clearBitMask s.cfg.regDivIrq 0x04 s).txlen = s.txlen := by simp [clearBitMask_eq]
  have e : calccrcIssue s = issueCommand .calcCrc (loadFrame (writeReg s.cfg.regCommand s.cfg.cmdIdle
      (writeReg s.cfg.regFifoLevel 0x80 (clearBitMask s.cfg.regDivIrq 0x04 s)))) := by
    simp only [calccrcIssue, runMicro, MicroOp.expansion, runItem, writeReg_cfg, ea.1]
  rw [e]
  generalize clearBitMask s.cfg.regDivIrq 0x04 s = a at *
  have h2 := (writeReg_ran s.cfg.regFifoLevel 0x80 a).append (writeReg_ran s.cfg.regCommand s.cfg.cmdIdle _)
  have eb : (writeReg s.cfg.regCommand s.cfg.cmdIdle (writeReg s.cfg.regFifoLevel 0x80 a)).cfg = s.cfg ∧
      (writeReg s.cfg.regCommand s.cfg.cmdIdle (writeReg s.cfg.regFifoLevel 0x80 a)).txbuf = s.txbuf ∧
      (writeReg s.cfg.regCommand s.cfg.cmdIdle (writeReg s.cfg.regFifoLevel 0x80 a)).txlen = s.txlen := by simp [ea]
  generalize writeReg s.cfg.regCommand s.cfg.cmdIdle (writeReg s.cfg.regFifoLevel 0x80 a) = b at *
  have h3 := loadFrame_ran b
  have h4 := issueCommand_ran .calcCrc (loadFrame b)
  rw [cfg_loadFrame, eb.1] at h4
  rw [eb.1, eb.2.1, eb.2.2] at h3
  exact ⟨x, ((h1.append h2).append h3).append h4⟩

/-- What CALCCRC's result reads leave (R114). -/
theorem calccrcResult_ran (s : State) :
    s.bus.Ran (calccrcResult s).bus
        [.read s.cfg.regCrcResultL (calccrcResult s).crcLo, .read s.cfg.regCrcResultH (calccrcResult s).crcHi] ∧
      (calccrcResult s).st = .ok ∧ (calccrcResult s).hit = s.hit ∧ (calccrcResult s).cnt = s.cnt ∧
      (calccrcResult s).irqv = s.irqv := by
  obtain ⟨l, r, h1, hl⟩ : ∃ l r, s.bus.Ran r [.read s.cfg.regCrcResultL l] ∧
      assign .crcLo (readReg s.cfg.regCrcResultL s) = { s with crcLo := l, bus := r } := ⟨_, _, readReg_ran _ s, by rfl⟩
  have h2 := readReg_ran s.cfg.regCrcResultH { s with crcLo := l, bus := r }
  have e : calccrcResult s =
      { s with
        crcLo := l, crcHi := (readReg s.cfg.regCrcResultH { s with crcLo := l, bus := r }).bus.rdv, st := .ok
        bus := (readReg s.cfg.regCrcResultH { s with crcLo := l, bus := r }).bus } := by
    unfold calccrcResult
    dsimp only
    rw [hl]
    rfl
  rw [e]
  exact ⟨h1.append h2, rfl, rfl, rfl, rfl⟩

end Sys2Proof.Machine
end

