-- ==== Sys2Proof/Laws/Activation.lean ====
section
/-! SUPPORT. What the sub-operations keep of the identifier and of CHECKCARD's own Status, which Status each can give (R107,
R115, R118 to R130), and CHECKCARD's four steps in sequence (R135). -/

namespace Sys2Proof.Machine

theorem tocard_keeps (cmd : ChipCmd) (s : State) :
    (tocard cmd s).uid = s.uid ∧ (tocard cmd s).cardType = s.cardType ∧ (tocard cmd s).ckst = s.ckst := by
  have h := eraseTocard_tocard cmd s
  simp only [eraseTocard, State.mk.injEq] at h
  simp [h]

theorem calccrc_keeps (s : State) :
    (calccrc s).uid = s.uid ∧ (calccrc s).cardType = s.cardType ∧ (calccrc s).ckst = s.ckst := by
  have h := eraseCrc_calccrc s
  simp only [eraseCrc, State.mk.injEq] at h
  simp [h]

/-- R104: NoTag is never a result of TOCARD. -/
theorem tocard_st_ne_noTag (cmd : ChipCmd) (s : State) : (tocard cmd s).st ≠ .noTag := by
  obtain ⟨_, _, _, _, _, _, h, _⟩ := tocardDecide_ran cmd (tocardStop (poll .irq (tocardIssue cmd (tocardPrelude cmd s))))
  unfold tocard
  rw [h]
  split_ifs <;> simp

/-- R114: CALCCRC gives Ok or Timeout. -/
theorem calccrc_st_ne_noTag (s : State) : (calccrc s).st ≠ .noTag := by
  unfold calccrc
  dsimp only
  split
  · simp only [assign]; simp
  · rw [(calccrcResult_ran _).2.1]; simp

/-- REQUEST writes neither the identifier nor CHECKCARD's Status (R118). -/
theorem request_keeps (m : Byte) (s : State) :
    (request m s).uid = s.uid ∧ (request m s).cardType = s.cardType ∧ (request m s).ckst = s.ckst := by
  unfold request sendRequestFrame
  dsimp only
  rw [runItem_write, assign_tx_one]
  obtain ⟨hu, ht, hk⟩ := tocard_keeps .transceive
    { s with txbuf := s.txbuf.set 0 m, txlen := 1, bus := s.bus.afterWrite s.cfg.regBitFraming 0x07 }
  simp only at hu ht hk
  generalize tocard .transceive _ = u at *
  simp only [assign]
  exact ⟨hu, ht, hk⟩

/-- ANTICOLL writes UID on Ok only, and only with a right checksum (R121). -/
theorem anticoll_keeps (s : State) :
    ((anticoll s).st ≠ .ok → (anticoll s).uid = s.uid) ∧ (anticoll s).cardType = s.cardType ∧
    (anticoll s).ckst = s.ckst ∧ (anticoll s).st ≠ .noTag ∧
    (checksumOk s.uid = true → checksumOk (anticoll s).uid = true) := by
  unfold anticoll sendAnticollFrame
  dsimp only
  rw [runItem_write, assign_tx_two]
  have hs := tocard_st_ne_noTag .transceive
    { s with
      txbuf := (s.txbuf.set 0 0x93).set 1 0x20, txlen := 2, bus := s.bus.afterWrite s.cfg.regBitFraming 0x00 }
  obtain ⟨hu, ht, hk⟩ := tocard_keeps .transceive
    { s with
      txbuf := (s.txbuf.set 0 0x93).set 1 0x20, txlen := 2, bus := s.bus.afterWrite s.cfg.regBitFraming 0x00 }
  simp only at hu ht hk
  generalize tocard .transceive _ = u at *
  refine ⟨?_, ?_, ?_, ?_, fun h => checksumOk_assign .anticollCheck u (by rw [hu]; exact h)⟩ <;>
    (simp only [assign]; split_ifs <;> simp_all)

/-- SELECT writes TYPE on Ok only, and no identifier (R124). -/
theorem select_keeps (s : State) :
    (select s).uid = s.uid ∧ (select s).ckst = s.ckst ∧ ((select s).st ≠ .ok → (select s).cardType = s.cardType) ∧
    (select s).st ≠ .noTag := by
  unfold select
  dsimp only
  have hs := calccrc_st_ne_noTag (assign .txSelect s)
  obtain ⟨hu, ht, hk⟩ := calccrc_keeps (assign .txSelect s)
  rw [assign_txSelect] at *
  simp only at hu ht hk
  generalize calccrc _ = k at *
  split
  · exact ⟨hu, hk, fun _ => ht, hs⟩
  · unfold selectTransceive
    rw [assign_txCrc_select]
    have hs' := tocard_st_ne_noTag .transceive
      { k with txbuf := (k.txbuf.set 7 k.crcLo).set 8 k.crcHi, txlen := 9 }
    obtain ⟨hu', ht', hk'⟩ := tocard_keeps .transceive
      { k with txbuf := (k.txbuf.set 7 k.crcLo).set 8 k.crcHi, txlen := 9 }
    simp only at hu' ht' hk'
    generalize tocard .transceive _ = u at *
    refine ⟨?_, ?_, ?_, ?_⟩ <;> (simp only [assign]; split_ifs <;> simp_all)

/-- HALT writes neither the identifier nor CHECKCARD's Status (R127, R154). -/
theorem halt_keeps (s : State) :
    (halt s).uid = s.uid ∧ (halt s).cardType = s.cardType ∧ (halt s).ckst = s.ckst := by
  unfold halt
  dsimp only
  rw [assign_tx_two]
  obtain ⟨hu, ht, hk⟩ := calccrc_keeps { s with txbuf := (s.txbuf.set 0 0x50).set 1 0x00, txlen := 2 }
  simp only at hu ht hk
  generalize calccrc _ = k at *
  rw [assign_txCrc_halt]
  obtain ⟨hu', ht', hk'⟩ := tocard_keeps .transceive
    { k with txbuf := (k.txbuf.set 2 k.crcLo).set 3 k.crcHi, txlen := 4 }
  simp only at hu' ht' hk'
  exact ⟨hu'.trans hu, ht'.trans ht, hk'.trans hk⟩

theorem keepStatus_eq (s : State) : assign .keepStatus s = { s with ckst := s.st } := rfl

/-- One guarded step of CHECKCARD: from a state whose own Status is the last step's (R135). -/
theorem stepIfOk_eq (f : State → State) (s : State) :
    stepIfOk f { s with ckst := s.st } =
      (if s.st = .ok then { f { s with ckst := .ok } with ckst := (f { s with ckst := .ok }).st }
       else { s with ckst := s.st }) := by
  unfold stepIfOk
  by_cases h : s.st = .ok
  · simp only [h, if_true, keepStatus_eq]
  · simp only [h, if_false]

end Sys2Proof.Machine
end

