-- ==== Sys2Proof/Laws/PerInstr.lean ====
section
/-! SUPPORT. Statements per instruction, one lemma for each constructor of `Instr`. -/

namespace Sys2Proof.Laws.EncodedLength

/-- The bytes an instruction's word has: those of its row in spec/opcode_table.json, and one for each operand byte that the
table gives no bits (log 11). -/
def bytes : Instr → Nat
  | .wrreg _ _ => 2
  | .rdreg _ => 2
  | .cmdIdle => 1
  | .cmdCalccrc => 1
  | .cmdTransmit => 1
  | .cmdReceive => 1
  | .cmdTransceive => 1
  | .cmdMfauthent => 1
  | .cmdSoftreset => 1
  | .frameReqa => 1
  | .frameReqall => 1
  | .frameAnticoll => 2
  | .frameSelect _ _ _ => 9
  | .frameHalt _ _ => 4
  | .init => 1
  | .version => 1
  | .checkcard => 1
  | .compareids => 1
  | .request _ => 2
  | .anticoll => 1
  | .select => 1
  | .halt => 1
  | .tocard _ => 2
  | .calccrc => 1
  | .setbm _ _ => 3
  | .clrbm _ _ => 3
  | .idle => 1

/-- The length of an instruction's word does not depend on the configuration or on its operands. -/
def Statement (i : Instr) : Prop := ∀ c : Cfg, (encode c i).2.length = bytes i

theorem wrreg (a : Addr) (d : Byte) : Statement (.wrreg a d) := fun _ => rfl
theorem rdreg (a : Addr) : Statement (.rdreg a) := fun _ => rfl
theorem cmdIdle : Statement .cmdIdle := fun _ => rfl
theorem cmdCalccrc : Statement .cmdCalccrc := fun _ => rfl
theorem cmdTransmit : Statement .cmdTransmit := fun _ => rfl
theorem cmdReceive : Statement .cmdReceive := fun _ => rfl
theorem cmdTransceive : Statement .cmdTransceive := fun _ => rfl
theorem cmdMfauthent : Statement .cmdMfauthent := fun _ => rfl
theorem cmdSoftreset : Statement .cmdSoftreset := fun _ => rfl
theorem frameReqa : Statement .frameReqa := fun _ => rfl
theorem frameReqall : Statement .frameReqall := fun _ => rfl
theorem frameAnticoll : Statement .frameAnticoll := fun _ => rfl
theorem frameSelect (u : CardId) (lo : Byte) (hi : Byte) : Statement (.frameSelect u lo hi) := fun _ => rfl
theorem frameHalt (lo : Byte) (hi : Byte) : Statement (.frameHalt lo hi) := fun _ => rfl
theorem init : Statement .init := fun _ => rfl
theorem version : Statement .version := fun _ => rfl
theorem checkcard : Statement .checkcard := fun _ => rfl
theorem compareids : Statement .compareids := fun _ => rfl
theorem request (m : Byte) : Statement (.request m) := fun _ => rfl
theorem anticoll : Statement .anticoll := fun _ => rfl
theorem select : Statement .select := fun _ => rfl
theorem halt : Statement .halt := fun _ => rfl
theorem tocard (k : ChipCmd) : Statement (.tocard k) := fun _ => rfl
theorem calccrc : Statement .calccrc := fun _ => rfl
theorem setbm (a : Addr) (m : Byte) : Statement (.setbm a m) := fun _ => rfl
theorem clrbm (a : Addr) (m : Byte) : Statement (.clrbm a m) := fun _ => rfl
theorem idle : Statement .idle := fun _ => rfl

end Sys2Proof.Laws.EncodedLength
end

