-- ==== Sys2Proof/Laws/Sequencer.lean ====
section
/-! SUPPORT. The sequencer's invariant (R27, R28) piece by piece: the pseudocode of every instruction is whole transactions
and stays within its call depth, and the sequencer's updates keep the invariant. -/

namespace Sys2Proof.Machine

theorem released_append (l m : List Line) (h : released l = true) (h' : released m = true) :
    released (l ++ m) = true := by
  fun_induction released l <;> simp_all [released]

/-- R86: the lines of every instruction hold whole transactions only. -/
theorem released_body (c : Cfg) (i : Instr) : released (body c i) = true := by
  cases i
  case tocard cmd => cases cmd <;> rfl
  case init =>
    have h : ∀ l : List Item, released (l.map .item) = true := by
      intro l
      induction l with
      | nil => rfl
      | cons a l ih => simpa [released] using ih
    simpa [body, released] using h c.initProgram
  all_goals rfl

@[simp] theorem linesDepth_append (l m : List Line) : linesDepth (l ++ m) = max (linesDepth l) (linesDepth m) := by
  induction l with
  | nil => simp [linesDepth]
  | cons a l ih => simp [linesDepth, ih, max_assoc]

/-- R27 (b), (c): the lines of an instruction need one caller's position less than the instruction itself, if it pushes its
own. -/
theorem linesDepth_body (c : Cfg) (i : Instr) :
    linesDepth (body c i) + (if (subOpr i).isSome then 1 else 0) ≤ callDepth i := by
  cases i
  case tocard cmd =>
    have h : ∀ k, linesDepth (tocardLines c k) = 1 := by intro k; cases k <;> rfl
    exact Nat.le_of_eq (congrArg (· + 1) (h cmd))
  case init =>
    have h : ∀ l : List Item, linesDepth (l.map .item) ≤ 1 := by
      intro l
      induction l with
      | nil => decide
      | cons a l ih => simp [linesDepth, lineDepth, ih]
    have e : linesDepth (body c .init) = max 0 (linesDepth (c.initProgram.map .item)) := rfl
    rw [e]
    have := h c.initProgram
    show max 0 _ + 0 ≤ 1
    omega
  case select => exact Nat.le_refl 3
  case halt => exact Nat.le_refl 3
  case checkcard => exact Nat.le_refl 3
  case calccrc => exact Nat.le_refl 2
  case request m => exact Nat.le_refl 3
  case anticoll => exact Nat.le_refl 3
  case frameReqa => exact Nat.le_refl 2
  case frameReqall => exact Nat.le_refl 2
  case frameAnticoll => exact Nat.le_refl 2
  case frameSelect u lo hi => exact Nat.le_refl 2
  case frameHalt lo hi => exact Nat.le_refl 2
  case setbm a m => exact Nat.le_refl 1
  case clrbm a m => exact Nat.le_refl 1
  all_goals exact Nat.le_refl 0

/-- The callers' part of `depthOk`. -/
def callersOk : List Frame → Bool
  | [] => true
  | f :: r => depthOk f.lines r

theorem depthOk_eq (ls : List Line) (r : List Frame) :
    depthOk ls r = (decide (linesDepth ls + r.length ≤ 3) && callersOk r) := by
  cases r <;> simp [depthOk, callersOk]

/-- The invariant of a busy engine between transactions, taken apart. -/
theorem invariant_released (s : State) (hb : s.seq.busy = true) (hs : s.bus.sel = false) :
    invariant s = true ↔
      released s.seq.ph = true ∧ (s.seq.ret.all fun f => released f.lines) = true ∧ s.seq.opr ≠ .idle ∧
      (s.seq.ret.all fun f => f.opr != .idle) = true ∧ linesDepth s.seq.ph + s.seq.ret.length ≤ 3 ∧
      callersOk s.seq.ret = true ∧ checksumOk s.uid = true := by
  simp only [invariant, selInvariant, busyInvariant, hb, hs, depthOk_eq, Bool.and_eq_true, bne_iff_ne, decide_eq_true_eq,
    if_true, Bool.false_eq_true, if_false]
  tauto

/-- The invariant of a busy engine inside a transaction, taken apart. -/
theorem invariant_selected (s : State) (hb : s.seq.busy = true) (hs : s.bus.sel = true) :
    invariant s = true ↔
      inTransaction s.seq.ph = true ∧ (s.seq.ret.all fun f => released f.lines) = true ∧ s.seq.opr ≠ .idle ∧
      (s.seq.ret.all fun f => f.opr != .idle) = true ∧ linesDepth s.seq.ph + s.seq.ret.length ≤ 3 ∧
      callersOk s.seq.ret = true ∧ checksumOk s.uid = true := by
  simp only [invariant, selInvariant, busyInvariant, hb, hs, depthOk_eq, Bool.and_eq_true, bne_iff_ne, decide_eq_true_eq,
    if_true]
  tauto

theorem invariant_of_same {s t : State} (h : t.seq = s.seq) (h' : t.bus.sel = s.bus.sel)
    (hu : checksumOk s.uid = true → checksumOk t.uid = true) (hi : invariant s = true) : invariant t = true := by
  simp only [invariant, Bool.and_eq_true, selInvariant, busyInvariant, h, h'] at *
  exact ⟨hi.1, hu hi.2⟩

theorem invariant_pushLines (s : State) (ls : List Line) (h : released ls = true) (hb : s.seq.busy = true)
    (hs : s.bus.sel = false) (hd : linesDepth ls + s.seq.ret.length ≤ 3) (hi : invariant s = true) :
    invariant (pushLines ls s) = true := by
  obtain ⟨h1, h2, h3, h4, h5, h6, h7⟩ := (invariant_released s hb hs).1 hi
  refine (invariant_released (pushLines ls s) hb hs).2 ⟨released_append _ _ h h1, h2, h3, h4, ?_, h6, h7⟩
  show linesDepth (ls ++ s.seq.ph) + s.seq.ret.length ≤ 3
  rw [linesDepth_append]
  omega

theorem subOpr_ne_idle (i : Instr) (o : Opr) (h : subOpr i = some o) : o ≠ .idle := by
  rintro rfl
  cases i <;> simp [subOpr] at h

/-- R27 (b): calling an instruction from a line keeps the invariant. -/
theorem invariant_enter (i : Instr) (s : State) (hb : s.seq.busy = true) (hs : s.bus.sel = false)
    (hd : callDepth i + s.seq.ret.length ≤ 3) (hi : invariant s = true) : invariant (enter i s) = true := by
  have hbody := linesDepth_body s.cfg i
  unfold enter
  cases ho : subOpr i with
  | none =>
    rw [ho] at hbody
    exact invariant_pushLines s _ (released_body _ _) hb hs (by simp at hbody; omega) hi
  | some o =>
    rw [ho] at hbody
    obtain ⟨h1, h2, h3, h4, h5, h6, h7⟩ := (invariant_released s hb hs).1 hi
    refine (invariant_released
      { s with seq := { s.seq with opr := o, ph := body s.cfg i, ret := ⟨s.seq.opr, s.seq.ph⟩ :: s.seq.ret } } hb hs).2
      ⟨released_body _ _, ?_, subOpr_ne_idle i o ho, ?_, ?_, ?_, h7⟩
    · simp only [List.all_cons, Bool.and_eq_true]; exact ⟨h1, h2⟩
    · simp only [List.all_cons, Bool.and_eq_true, bne_iff_ne]; exact ⟨h3, h4⟩
    · simp at hbody ⊢; omega
    · show depthOk s.seq.ph s.seq.ret = true
      rw [depthOk_eq, h6, decide_eq_true h5]; rfl

/-- A line that is no transport event of a transaction, taken off PH. -/
theorem invariant_dropLine (s : State) (l : Line) (r : List Line) (hb : s.seq.busy = true) (hp : s.seq.ph = l :: r)
    (hx : ∀ t k, l ≠ .xchg t k) (ha : l ≠ .selAssert) (hr : l ≠ .selRelease) (hi : invariant s = true) :
    invariant (dropLine s) = true ∧ s.bus.sel = false ∧ lineDepth l + s.seq.ret.length ≤ 3 := by
  have hs : s.bus.sel = false := by
    cases hs : s.bus.sel with
    | false => rfl
    | true =>
      have h := ((invariant_selected s hb hs).1 hi).1
      rw [hp] at h
      cases l <;> simp_all [inTransaction]
  obtain ⟨h1, h2, h3, h4, h5, h6, h7⟩ := (invariant_released s hb hs).1 hi
  rw [hp] at h1 h5
  rw [linesDepth] at h5
  refine ⟨(invariant_released (dropLine s) hb hs).2 ⟨?_, h2, h3, h4, ?_, h6, h7⟩, hs, by omega⟩
  · show released s.seq.ph.tail = true
    rw [hp]
    cases l <;> simp_all [released]
  · show linesDepth s.seq.ph.tail + s.seq.ret.length ≤ 3
    rw [hp, List.tail_cons]
    omega

end Sys2Proof.Machine
end

