-- ==== Sys2Proof/Tests/Slice0.lean ====
section
/-! SUPPORT. The model's own tests: words written out from the encodings of spec/, ill-formed configurations, the vectors of
spec/95_test_vectors.md on one instruction each, and a witness for every statement with hypotheses. The vectors' addresses
and command codes are those of the default record, under which spec/95 states them; no statement rests on a default (R7). -/

namespace Sys2Proof.Tests

open Sys2Proof.Machine

/-! ## Words written out (R61 to R79) -/

/-- R61: W BIT_FRAMING 07 is 1A 07 (95 section 2); 0 001101 0, then the data. -/
theorem test_decode_wrreg (c : Cfg) : decode c .wire [0b0_001101_0, 0x07] = .ok (.wrreg 0x0D 0x07) [] := by
  rw [decode]; decide

/-- R62: R COM_IRQ is 88 00; 1 000100 0, then the dummy. -/
theorem test_decode_rdreg (c : Cfg) : decode c .wire [0b1_000100_0, 0x00] = .ok (.rdreg 0x04) [] := by
  rw [decode]; decide

/-- R63, 95 section 2: the lowest and the highest address. -/
theorem test_decode_edge_addresses :
    decode Cfg.default .wire [0x7E, 0x00] = .ok (.wrreg 0x3F 0x00) [] ∧
    decode Cfg.default .wire [0xFE, 0x00] = .ok (.rdreg 0x3F) [] ∧
    decode Cfg.default .wire [0x00, 0xFF] = .ok (.wrreg 0x00 0xFF) [] := by decide

/-- R65: the seven command bytes, under the default codes of its table. -/
theorem test_decode_commands :
    ([0x00, 0x03, 0x04, 0x08, 0x0C, 0x0E, 0x0F] : List Byte).map (fun b => (decode Cfg.default .chipCmd [b]).instr?) =
      [some .cmdIdle, some .cmdCalccrc, some .cmdTransmit, some .cmdReceive, some .cmdTransceive, some .cmdMfauthent,
        some .cmdSoftreset] := by decide

/-- R67 to R69. -/
theorem test_decode_short_frames (c : Cfg) :
    decode c .frame [0x26] = .ok .frameReqa [] ∧ decode c .frame [0x52] = .ok .frameReqall [] ∧
    decode c .frame [0x93, 0x20] = .ok .frameAnticoll [] := by
  simp only [decode]; decide

/-- R70: the select frame of program P1. -/
theorem test_decode_select_frame (c : Cfg) :
    decode c .frame [0x93, 0x70, 0x4D, 0xAF, 0x84, 0x59, 0x3F, 0x18, 0xD6] =
      .ok (.frameSelect ⟨0x4D, 0xAF, 0x84, 0x59, 0x3F⟩ 0x18 0xD6) [] := by
  simp only [decode]; decide

/-- R71: the halt frame of program P1. -/
theorem test_decode_halt_frame (c : Cfg) :
    decode c .frame [0x50, 0x00, 0x57, 0xCD] = .ok (.frameHalt 0x57 0xCD) [] := by
  simp only [decode]; decide

/-- R77: OPC 0 to 3. -/
theorem test_decode_host (c : Cfg) :
    ([0, 1, 2, 3] : List Byte).map (fun b => (decode c .host [b]).instr?) =
      [some .init, some .version, some .checkcard, some .compareids] := by
  simp only [decode]; decide

/-- R79: OPR 0 and 5 to 12, operand bytes as log 11 lays them out. -/
theorem test_decode_sequencer (c : Cfg) :
    decode c .seq [0] = .ok .idle [] ∧ decode c .seq [5, 0x52] = .ok (.request 0x52) [] ∧
    decode c .seq [6] = .ok .anticoll [] ∧ decode c .seq [7] = .ok .select [] ∧
    decode c .seq [8] = .ok .halt [] ∧ decode c .seq [9, 5] = .ok (.tocard .mfAuthent) [] ∧
    decode c .seq [10] = .ok .calccrc [] ∧
    decode c .seq [11, 0x14, 0x03] = .ok (.setbm 0x14 0x03) [] ∧
    decode c .seq [12, 0x0E, 0x80] = .ok (.clrbm 0x0E 0x80) [] := by
  simp only [decode]; decide

/-- R80: what is rejected, each by its name. -/
theorem test_decode_rejects (c : Cfg) :
    decode c .wire [0x1B, 0x07] = .reject .addressBitZero ∧
    decode c .wire [0x88, 0x01] = .reject .dummyNotZero ∧
    decode c .wire [0x88] = .reject .truncated ∧
    decode c .frame [0x27] = .reject .unknownFrame ∧ decode c .frame [0x93, 0x30] = .reject .unknownFrame ∧
    decode c .frame [0x50, 0x01] = .reject .unknownFrame ∧
    decode c .host [4] = .reject .hostCodeTooWide ∧
    decode c .seq [13] = .reject .unreachableCode ∧
    decode c .seq [12, 64, 0] = .reject .operandOutOfRange := by
  simp only [decode]; decide

/-- The words of spec/opcode_table.json under their own widths. -/
theorem test_table_words :
    decodeTableWord 16 0x0000 = some (.wrreg 0 0) ∧ decodeTableWord 16 0x8000 = some (.rdreg 0) ∧
    decodeTableWord 8 0x0E = some .cmdMfauthent ∧ decodeTableWord 8 0x52 = some .frameReqall ∧
    decodeTableWord 16 0x9320 = some .frameAnticoll ∧ decodeTableWord 32 0x50000000 = some (.frameHalt 0 0) ∧
    decodeTableWord 72 0x937000000000000000 = some (.frameSelect CardId.zero 0 0) ∧
    decodeTableWord 2 3 = some .compareids ∧ decodeTableWord 4 12 = some (.clrbm 0 0) ∧
    decodeTableWord 8 10 = some .calccrc := by decide

/-- R7: the byte of a chip command is the configuration's, in the decoder and where a word is placed. -/
def swappedCfg : Cfg := { Cfg.default with cmdIdle := 0x0C, cmdTransceive := 0x00 }

theorem test_words_under_another_configuration :
    decodeWordOf swappedCfg 8 0x0C = some .cmdIdle ∧ decodeWordOf swappedCfg 8 0x00 = some .cmdTransceive ∧
    (State.withFetchWord (State.resetWith swappedCfg) 8 0x0C).seq.ph = [.instr .cmdIdle] := by decide

/-! ## Ill-formed configurations (R7, R80 (c), U1, U4, U8, D35) -/

theorem test_default_configuration : Cfg.default.wf = true := by decide

theorem test_equal_addresses_refused : Cfg.registersDistinct { Cfg.default with regColl := 0x01 } = false := by decide

theorem test_request_mode_refused : Cfg.reqModeNamed { Cfg.default with reqMode := 0x27 } = false := by decide

theorem test_silent_status_refused : Cfg.silentStatusNamed { Cfg.default with reqSilentStatus := .error } = false := by
  decide

/-! ## Scripted runs of one instruction -/

/-- The answers that let a listing run: the byte of a read in its second exchange, 0xEE wherever a byte is dropped. -/
def script : List Access → List Answer
  | [] => []
  | .write _ _ :: l => ⟨0xEE, false⟩ :: ⟨0xEE, false⟩ :: script l
  | .read _ v :: l => ⟨0xEE, false⟩ :: ⟨v, false⟩ :: script l
  | .delay _ :: l => script l

/-- Three polls and two CRC polls at most. -/
def smallCfg : Cfg := { Cfg.default with pollBudget := 3, crcBudget := 2 }

/-- The reset state with an answer list. -/
def answered (l : List Answer) : State :=
  { State.resetWith smallCfg with
    bus := { sel := false, terr := false, rdv := 0, trace := [], answers := l, xcount := 0 } }

/-- The reset state with TXBUF and TXLEN as given and the answers of a listing. -/
def sending (bs : List Byte) (n : Fin 17) (l : List Access) : State :=
  { answered (script l) with txbuf := putBytes (Vector.replicate 16 0) 0 bs, txlen := n }

/-- An instruction completes, and its next state meets a test. -/
def gives (o : Result) (p : State → Bool) : Bool :=
  match o with
  | .next t => p t
  | .fault _ => false
  | .refused _ => false

theorem next_of_gives {o : Result} {p : State → Bool} (h : gives o p = true) : ∃ t, o = .next t := by
  cases o with
  | next t => exact ⟨t, rfl⟩
  | fault _ => simp [gives] at h
  | refused _ => simp [gives] at h

/-- R94 as listed in vector T1. -/
def prelude : List Access :=
  [.write 0x02 0xF7, .write 0x01 0x00, .read 0x0E 0x00, .write 0x0E 0x00, .write 0x04 0x7F, .write 0x0A 0x80]

/-- Vector RA1. -/
theorem test_wrreg :
    gives (exec (.wrreg 0x0D 0x07) (answered [⟨0x11, false⟩, ⟨0x22, false⟩]))
      (fun t => t.bus.trace == [.selAssert, .xchg 0x1A 0x11, .xchg 0x07 0x22, .selRelease] && !t.bus.terr) = true := by
  decide

/-- Vector RA15: the fault sets TERR, the second exchange is still made. -/
theorem test_wrreg_fault :
    gives (exec (.wrreg 0x01 0x0C) (answered [⟨0x00, true⟩, ⟨0x33, false⟩]))
      (fun t => t.bus.trace == [.selAssert, .xchg 0x02 0x00, .xchg 0x0C 0x33, .selRelease] && t.bus.terr) = true := by
  decide

/-- Vector RA4. -/
theorem test_rdreg :
    gives (exec (.rdreg 0x04) (answered [⟨0xAA, false⟩, ⟨0x64, false⟩]))
      (fun t => t.bus.trace == [.selAssert, .xchg 0x88 0xAA, .xchg 0x00 0x64, .selRelease] && t.bus.rdv == 0x64) =
      true := by decide

/-- Vector RA14: the byte that came with a fault is used. -/
theorem test_rdreg_fault :
    gives (exec (.rdreg 0x04) (answered [⟨0xAA, false⟩, ⟨0x5A, true⟩]))
      (fun t => t.bus.rdv == 0x5A && t.bus.terr) = true := by decide

/-- Vector RA8. -/
theorem test_setbm :
    gives (exec (.setbm 0x0D 0x80) (answered (script [.read 0x0D 0x07, .write 0x0D 0x87])))
      (fun t => showsAccesses [.read 0x0D 0x07, .write 0x0D 0x87] t.bus.trace && t.tmp == 0x07) = true := by
  decide

/-- Vector RA11. -/
theorem test_clrbm :
    gives (exec (.clrbm 0x05 0x04) (answered (script [.read 0x05 0xFF, .write 0x05 0xFB])))
      (fun t => showsAccesses [.read 0x05 0xFF, .write 0x05 0xFB] t.bus.trace && t.tmp == 0xFF) = true := by
  decide

/-- R65: the wire bytes 02 and the code, for one state. -/
def issues (i : Instr) (code : Byte) : Bool :=
  gives (exec i (answered [⟨0x11, false⟩, ⟨0x22, false⟩])) fun t =>
    t.bus.trace == [.selAssert, .xchg 0x02 0x11, .xchg code 0x22, .selRelease]

theorem test_cmd_idle : issues .cmdIdle 0x00 = true := by decide
theorem test_cmd_calccrc : issues .cmdCalccrc 0x03 = true := by decide
theorem test_cmd_transmit : issues .cmdTransmit 0x04 = true := by decide
theorem test_cmd_receive : issues .cmdReceive 0x08 = true := by decide
theorem test_cmd_transceive : issues .cmdTransceive 0x0C = true := by decide
theorem test_cmd_mfauthent : issues .cmdMfauthent 0x0E = true := by decide
theorem test_cmd_softreset : issues .cmdSoftreset 0x0F = true := by decide

/-- A listing is made by an instruction from a state set up with its answers, and the next state meets a test. -/
def makes (i : Instr) (s : State) (l : List Access) (p : State → Bool) : Bool :=
  gives (exec i { s with bus := { s.bus with answers := script l } }) fun t => showsAccesses l t.bus.trace && p t

/-- Vector T6 behind W BIT_FRAMING 07 (R67, R118): completion on the last allowed poll. -/
def requestListing (m : Byte) : List Access :=
  .write 0x0D 0x07 :: prelude ++ ([.write 0x09 m, .write 0x01 0x0C, .read 0x0D 0x07, .write 0x0D 0x87, .read 0x04 0x00,
    .read 0x04 0x00, .read 0x04 0x20, .read 0x0D 0x87, .write 0x0D 0x07, .read 0x06 0x00, .read 0x0A 0x02,
    .read 0x0C 0x00, .read 0x09 0x04, .read 0x09 0x00] : List Access)

theorem test_frame_reqa :
    makes .frameReqa (answered []) (requestListing 0x26)
      (fun t => t.st == .ok && t.rxlen == 16 && t.cnt == 3 && t.txlen == 1) = true := by decide

theorem test_frame_reqall :
    makes .frameReqall (answered []) (requestListing 0x52) (fun t => t.st == .ok && t.rxAt 0 == 0x04) = true := by
  decide

/-- Vector T5 behind W BIT_FRAMING 00 (R69): a collision, no drain. -/
def collisionListing : List Access :=
  .write 0x0D 0x00 :: prelude ++ ([.write 0x09 0x93, .write 0x09 0x20, .write 0x01 0x0C, .read 0x0D 0x00,
    .write 0x0D 0x80, .read 0x04 0x64, .read 0x0D 0x80, .write 0x0D 0x00, .read 0x06 0x08] : List Access)

theorem test_frame_anticoll :
    makes .frameAnticoll (answered []) collisionListing (fun t => t.st == .error && t.rxlen == 0) = true := by
  decide

/-- Program P1, tx 58 to 84 (R70). -/
def selectTransceiveListing : List Access :=
  prelude ++ ([.write 0x09 0x93, .write 0x09 0x70, .write 0x09 0x4D, .write 0x09 0xAF, .write 0x09 0x84, .write 0x09 0x59,
    .write 0x09 0x3F, .write 0x09 0x18, .write 0x09 0xD6, .write 0x01 0x0C, .read 0x0D 0x00, .write 0x0D 0x80,
    .read 0x04 0x64, .read 0x0D 0x80, .write 0x0D 0x00, .read 0x06 0x00, .read 0x0A 0x03, .read 0x0C 0x00,
    .read 0x09 0x08, .read 0x09 0xB6, .read 0x09 0xDD] : List Access)

theorem test_frame_select :
    makes (.frameSelect ⟨0x4D, 0xAF, 0x84, 0x59, 0x3F⟩ 0x18 0xD6) (answered []) selectTransceiveListing
      (fun t => t.st == .ok && t.rxlen == 24 && t.txlen == 9 && t.cardType == 0) = true := by decide +kernel

/-- Program P1, tx 95 to 111 (R71): the card is silent. -/
def haltTransceiveListing : List Access :=
  prelude ++ ([.write 0x09 0x50, .write 0x09 0x00, .write 0x09 0x57, .write 0x09 0xCD, .write 0x01 0x0C, .read 0x0D 0x00,
    .write 0x0D 0x80, .read 0x04 0x45, .read 0x0D 0x80, .write 0x0D 0x00, .read 0x06 0x00] : List Access)

theorem test_frame_halt :
    makes (.frameHalt 0x57 0xCD) (answered []) haltTransceiveListing (fun t => t.st == .timeout && t.txlen == 4) =
      true := by decide

/-- Vector T11: MFAuthent waits for bit 0x10 and drains nothing. -/
theorem test_tocard_mfauthent :
    makes (.tocard .mfAuthent) (sending [0x60, 0x04] 2 [])
      [.write 0x02 0x92, .write 0x01 0x00, .read 0x0E 0x00, .write 0x0E 0x00, .write 0x04 0x7F, .write 0x0A 0x80,
        .write 0x09 0x60, .write 0x09 0x04, .write 0x01 0x0E, .read 0x04 0x20, .read 0x04 0x10, .read 0x0D 0x00,
        .write 0x0D 0x00, .read 0x06 0x00]
      (fun t => t.st == .ok && t.en == 0x12 && t.wait == 0x10 && t.cnt == 2 && t.rxlen == 0) = true := by decide

/-- Vector T14: a level of 20 gives a length of 160 bits and sixteen bytes. -/
theorem test_tocard_level_above_sixteen :
    makes (.tocard .transceive) (sending [0x26] 1 [])
      (prelude ++ ([.write 0x09 0x26, .write 0x01 0x0C, .read 0x0D 0x07, .write 0x0D 0x87, .read 0x04 0x64,
        .read 0x0D 0x87, .write 0x0D 0x07, .read 0x06 0x00, .read 0x0A 0x14, .read 0x0C 0x00, .read 0x09 0x01,
        .read 0x09 0x02, .read 0x09 0x03, .read 0x09 0x04, .read 0x09 0x05, .read 0x09 0x06, .read 0x09 0x07,
        .read 0x09 0x08, .read 0x09 0x09, .read 0x09 0x0A, .read 0x09 0x0B, .read 0x09 0x0C, .read 0x09 0x0D,
        .read 0x09 0x0E, .read 0x09 0x0F, .read 0x09 0x10] : List Access))
      (fun t => t.st == .ok && t.rxlen == 160 && t.lvl == 16 && t.rxAt 15 == 0x10) = true := by decide +kernel

/-- Vector K3: a hit on the last allowed read. -/
theorem test_calccrc :
    makes .calccrc (sending [0x50, 0x00] 2 [])
      [.read 0x05 0x00, .write 0x05 0x00, .write 0x0A 0x80, .write 0x01 0x00, .write 0x09 0x50, .write 0x09 0x00,
        .write 0x01 0x03, .read 0x05 0x00, .read 0x05 0x04, .read 0x22 0x57, .read 0x21 0xCD]
      (fun t => t.st == .ok && t.crcLo == 0x57 && t.crcHi == 0xCD && t.cnt == 2) = true := by decide

/-- Vectors K2, K5: every bit but 0x04 is no hit; CRC is kept. -/
theorem test_calccrc_timeout :
    makes .calccrc { sending [0x50, 0x00] 2 [] with crcLo := 0x18, crcHi := 0xD6 }
      [.read 0x05 0x00, .write 0x05 0x00, .write 0x0A 0x80, .write 0x01 0x00, .write 0x09 0x50, .write 0x09 0x00,
        .write 0x01 0x03, .read 0x05 0xFB, .read 0x05 0xFB]
      (fun t => t.st == .timeout && t.crcLo == 0x18 && t.crcHi == 0xD6 && !t.hit) = true := by decide

/-- Vector A1. -/
theorem test_request : makes (.request 0x26) (answered []) (requestListing 0x26) (fun t => t.st == .ok) = true := by
  decide

/-- Program P2, tx 1 to 15: the timer bit alone. -/
def silentListing : List Access :=
  .write 0x0D 0x07 :: prelude ++ ([.write 0x09 0x26, .write 0x01 0x0C, .read 0x0D 0x07, .write 0x0D 0x87,
    .read 0x04 0x45, .read 0x0D 0x87, .write 0x0D 0x07, .read 0x06 0x00] : List Access)

/-- Vector A9: REQ_SILENT_STATUS NoTag. -/
theorem test_request_silent :
    makes (.request 0x26) (answered []) silentListing (fun t => t.st == .noTag) = true := by decide

/-- Vectors B1, B2: ANTICOLL with the five bytes of P1, the last one given. -/
def anticollListing (k : Byte) : List Access :=
  .write 0x0D 0x00 :: prelude ++ ([.write 0x09 0x93, .write 0x09 0x20, .write 0x01 0x0C, .read 0x0D 0x00,
    .write 0x0D 0x80, .read 0x04 0x64, .read 0x0D 0x80, .write 0x0D 0x00, .read 0x06 0x00, .read 0x0A 0x05,
    .read 0x0C 0x00, .read 0x09 0x4D, .read 0x09 0xAF, .read 0x09 0x84, .read 0x09 0x59, .read 0x09 k] : List Access)

theorem test_anticoll :
    makes .anticoll (answered []) (anticollListing 0x3F)
      (fun t => t.st == .ok && t.uid == ⟨0x4D, 0xAF, 0x84, 0x59, 0x3F⟩) = true := by decide

theorem test_anticoll_bad_checksum :
    makes .anticoll (answered []) (anticollListing 0x3E) (fun t => t.st == .error && t.uid == CardId.zero) = true := by
  decide

/-- Program P1, tx 43 to 57 (R124). -/
def selectCrcListing : List Access :=
  [.read 0x05 0x00, .write 0x05 0x00, .write 0x0A 0x80, .write 0x01 0x00, .write 0x09 0x93, .write 0x09 0x70,
    .write 0x09 0x4D, .write 0x09 0xAF, .write 0x09 0x84, .write 0x09 0x59, .write 0x09 0x3F, .write 0x01 0x03,
    .read 0x05 0x04, .read 0x22 0x18, .read 0x21 0xD6]

/-- Vector S-1. -/
theorem test_select :
    makes .select { answered [] with uid := ⟨0x4D, 0xAF, 0x84, 0x59, 0x3F⟩ } (selectCrcListing ++ selectTransceiveListing)
      (fun t => t.st == .ok && t.cardType == 0x08) = true := by decide +kernel

/-- Vector S-8: CALCCRC's Timeout ends SELECT; TXLEN stays 7. -/
theorem test_select_without_crc :
    makes .select { answered [] with uid := ⟨0x4D, 0xAF, 0x84, 0x59, 0x3F⟩ }
      ([.read 0x05 0x00, .write 0x05 0x00, .write 0x0A 0x80, .write 0x01 0x00, .write 0x09 0x93, .write 0x09 0x70,
        .write 0x09 0x4D, .write 0x09 0xAF, .write 0x09 0x84, .write 0x09 0x59, .write 0x09 0x3F, .write 0x01 0x03,
        .read 0x05 0x00, .read 0x05 0x00])
      (fun t => t.st == .timeout && t.txlen == 7 && t.en == 0) = true := by decide

/-- Program P1, tx 85 to 94 (R127). -/
def haltCrcListing : List Access :=
  [.read 0x05 0x04, .write 0x05 0x00, .write 0x0A 0x80, .write 0x01 0x00, .write 0x09 0x50, .write 0x09 0x00,
    .write 0x01 0x03, .read 0x05 0x04, .read 0x22 0x57, .read 0x21 0xCD]

/-- Vector H-1. -/
theorem test_halt :
    makes .halt (answered []) (haltCrcListing ++ haltTransceiveListing) (fun t => t.txlen == 4 && t.txAt 3 == 0xCD) =
      true := by decide +kernel

/-- Vector I1. -/
theorem test_init :
    makes .init (answered [])
      [.write 0x01 0x0F, .delay 50, .write 0x2A 0x8D, .write 0x2B 0x3E, .write 0x2D 0x1E, .write 0x2C 0x00,
        .write 0x15 0x40, .write 0x11 0x3D, .read 0x14 0x80, .write 0x14 0x83]
      (fun t => !t.bus.terr && t.tmp == 0x80) = true := by decide

/-- Vector V1. -/
theorem test_version : makes .version (answered []) [.read 0x37 0x92] (fun t => t.ver == 0x92) = true := by
  decide

/-- Program P1, a card present. -/
theorem test_checkcard :
    makes .checkcard (answered [])
      (requestListing 0x26 ++ anticollListing 0x3F ++ (selectCrcListing ++ selectTransceiveListing) ++
        (haltCrcListing ++ haltTransceiveListing))
      (fun t => t.status == .ok && t.uid == ⟨0x4D, 0xAF, 0x84, 0x59, 0x3F⟩ && t.cardType == 0x08) = true := by
  decide +kernel

/-- Program P4: a wrong checksum; the halt frame still goes out. -/
theorem test_checkcard_bad_checksum :
    makes .checkcard (answered []) (requestListing 0x26 ++ anticollListing 0x3E ++ (haltCrcListing ++ haltTransceiveListing))
      (fun t => t.status == .error && t.uid == CardId.zero && t.cardType == 0x00) = true := by decide +kernel

/-- Vectors C1, C4. -/
theorem test_compareids :
    gives (exec .compareids
        { answered [] with ida := ⟨0x4D, 0xAF, 0x84, 0x59, 0x3F⟩, idb := ⟨0x4D, 0xAF, 0x84, 0x59, 0x3F⟩, status := .error })
      (fun t => t.status == .ok && t.bus.trace.isEmpty) = true := by decide

theorem test_compareids_checksum_byte :
    gives (exec .compareids
        { answered [] with ida := ⟨0x4D, 0xAF, 0x84, 0x59, 0x3F⟩, idb := ⟨0x4D, 0xAF, 0x84, 0x59, 0x3E⟩ })
      (fun t => t.status == .error) = true := by decide

/-- R162. -/
theorem test_idle : gives (exec .idle State.reset) (fun t => t == State.reset) = true := by decide

/-! ## One step of the machine -/

/-- Vectors Z3, Z4: a reset inside a transaction emits one SelRelease, between two of them nothing. -/
theorem test_reset_event :
    gives (step { answered [] with
        bus := { sel := true, terr := true, rdv := 0, trace := [.selAssert], answers := [], xcount := 0 }, tmp := 0x55
        moves := [.reset] })
      (fun t => t.bus.trace == [.selAssert, .selRelease] && !t.bus.sel && !t.bus.terr && t.tmp == 0) = true ∧
    gives (step { answered [] with tmp := 0x55, moves := [.reset] })
      (fun t => t.bus.trace.isEmpty && t.tmp == 0) = true := by decide

/-- The engine runs a write transaction event by event and ends with the state of WRREG. -/
theorem test_moves_of_wrreg :
    gives (Host.Core.run Sys2Proof.core 5 (withEngineMoves 5
        (State.withInstr (answered [⟨0x11, false⟩, ⟨0x22, false⟩]) (.wrreg 0x0D 0x07))))
      (fun t => t.bus.trace == [.selAssert, .xchg 0x1A 0x11, .xchg 0x07 0x22, .selRelease] && t.seq.ph.isEmpty) = true := by
  decide

/-! ## Witnesses: states and operands that meet the hypotheses of each statement -/

/-- A busy engine about to run VERSION. -/
def busyState : State := State.withInstr (answered [⟨0x11, false⟩, ⟨0x92, false⟩]) .version

theorem witness_DecodeOfEncodeIsTheInstruction : Cfg.default.commandsDistinct = true := by decide

theorem witness_EncodeOfDecodeGivesTheBytes :
    (EncClass.wire ≠ .seq ∧ decode Cfg.default .wire [0x9A, 0x00, 0x55] = .ok (.rdreg 0x0D) [0x55]) ∧
    (EncClass.chipCmd ≠ .seq ∧ decode Cfg.default .chipCmd [0x0F] = .ok .cmdSoftreset []) ∧
    (EncClass.frame ≠ .seq ∧ decode Cfg.default .frame [0x50, 0x00, 0x57, 0xCD] = .ok (.frameHalt 0x57 0xCD) []) ∧
    (EncClass.host ≠ .seq ∧ decode Cfg.default .host [3] = .ok .compareids []) := by decide

theorem witness_ReservedEncodingsAreRejected :
    (0x01 : Byte).getLsbD 0 = true ∧
    ((0x80 : Byte).getLsbD 0 = false ∧ (0x80 : Byte).getLsbD 7 = true ∧ (0x01 : Byte) ≠ 0) ∧
    (∀ k : ChipCmd, cmdCode Cfg.default k ≠ 0x01) ∧
    ((0x27 : Byte) ≠ 0x26 ∧ (0x27 : Byte) ≠ 0x52 ∧ (0x27 : Byte) ≠ 0x93 ∧ (0x27 : Byte) ≠ 0x50) ∧
    ((0x00 : Byte) ≠ 0x20 ∧ (0x00 : Byte) ≠ 0x70) ∧ (0x01 : Byte) ≠ 0x00 ∧
    4 ≤ (4 : Byte).toNat ∧ 4 ≤ (255 : Byte).toNat ∧ 13 ≤ (13 : Byte).toNat ∧ 13 ≤ (255 : Byte).toNat ∧
    7 ≤ (7 : Byte).toNat ∧ 64 ≤ (64 : Byte).toNat := by
  refine ⟨by decide, by decide, ?_, by decide⟩
  intro k
  cases k <;> decide

theorem witness_WordsWrittenOutDecode : Cfg.default.commandsDistinct = true := by decide

/-- A Transceive that ends Ok (vector T6), one that does not (T5), and a command without a drain (T11) all occur: the tests
above. Here: a command with no wait bit. -/
theorem witness_TocardWithoutWaitBitNeverSucceeds : ChipCmd.softReset ≠ .transceive ∧ ChipCmd.softReset ≠ .mfAuthent := by
  decide

/-- Program P2: CHECKCARD ends in NoTag, its REQUEST having given NoTag; a REQUEST that is not Ok. -/
theorem witness_NoTagComesFromASilentRequestOnly :
    makes .checkcard (answered []) (silentListing ++ (haltCrcListing ++ haltTransceiveListing))
      (fun t => t.status == .noTag && t.uid == CardId.zero && t.cardType == 0x00) = true := by
  decide +kernel

/-- REQUEST Ok, then ANTICOLL with the fifth byte `k`: Ok for the right checksum, Error for a wrong one (programs P1, P4). -/
def requestThenAnticoll (k : Byte) (p : State → State → Bool) : Bool :=
  gives (exec (.request 0x26) (answered (script (requestListing 0x26 ++ anticollListing k)))) fun r =>
    gives (exec .anticoll { r with ckst := .ok }) fun a => p r a

theorem witness_CheckcardLeavesACheckedIdentifier :
    requestThenAnticoll 0x3F (fun r a => r.st == .ok && a.st == .ok) = true ∧
    requestThenAnticoll 0x3E (fun r a => r.st == .ok && a.st != .ok) = true := by decide +kernel

theorem witness_InstructionsKeepWhatIsNotTheirs :
    ∃ t, exec .version State.reset = .next t := ⟨_, rfl⟩

/-- Every instruction but the named writers of a register; TOCARD is none of them. -/
theorem witness_ResultRegistersHaveTheirWriters :
    (Instr.tocard .idle ≠ .checkcard ∧ Instr.tocard .idle ≠ .compareids ∧ Instr.tocard .idle ≠ .version ∧
      Instr.tocard .idle ≠ .anticoll ∧ Instr.tocard .idle ≠ .select ∧ Instr.tocard .idle ≠ .halt ∧
      Instr.tocard .idle ≠ .calccrc) ∧
    ∃ t, exec (.tocard .idle) State.reset = .next t := ⟨by decide, _, rfl⟩

theorem witness_InstructionsAddWholeTransactions :
    (∃ t, exec .version State.reset = .next t) ∧ State.reset.bus.sel = false := ⟨⟨_, rfl⟩, rfl⟩

theorem witness_TerrIsStickyExceptForInit :
    (∃ t, exec .init State.reset = .next t) ∧ (∃ t, exec .version State.reset = .next t) := ⟨⟨_, rfl⟩, ⟨_, rfl⟩⟩

theorem witness_TransportFaultsAreAdvisory :
    eraseFaults (answered [⟨0xAA, false⟩, ⟨0x5A, true⟩]) = eraseFaults (answered [⟨0xAA, true⟩, ⟨0x5A, false⟩]) ∧
    ∃ t, exec (.rdreg 0x04) (answered [⟨0xAA, false⟩, ⟨0x5A, true⟩]) = .next t := ⟨by decide, _, rfl⟩

theorem witness_StartIsAcceptedWhenIdle :
    smallCfg.wf = true ∧ (answered []).seq.busy = false ∧
      ({ answered [] with moves := [.start 2 CardId.zero CardId.zero] } : State).moves =
        .start 2 CardId.zero CardId.zero :: [] := by decide

theorem witness_StartIsIgnoredWhileBusy :
    busyState.cfg.wf = true ∧ busyState.seq.busy = true ∧
      ({ busyState with moves := [.start 2 CardId.zero CardId.zero] } : State).moves =
        .start 2 CardId.zero CardId.zero :: [] := by decide

theorem witness_ResetEventClearsEveryRegister :
    busyState.cfg.wf = true ∧ ({ busyState with moves := [.reset] } : State).moves = .reset :: [] := by decide

theorem witness_OperationEndClearsBusy :
    let s : State := { answered [] with seq := { busy := true, opr := .version, ph := [], ret := [] } }
    s.cfg.wf = true ∧ s.moves = [] ∧ s.seq.busy = true ∧ s.seq.ph = [] ∧ s.seq.ret = [] := by decide

theorem witness_StepRunsTheFetchedInstruction :
    (busyState.cfg.wf = true ∧ busyState.moves = [] ∧ busyState.seq.busy = true ∧
      busyState.seq.ph = .instr .version :: []) ∧
    (State.reset.cfg.wf = true ∧ State.reset.moves = [] ∧ State.reset.seq.busy = false) := by decide

theorem witness_PlacedWordRunsNext :
    State.reset.cfg.wf = true ∧ decodeWordOf State.reset.cfg 16 0x1A07 = some (.wrreg 0x0D 0x07) ∧
      decodeWordOf State.reset.cfg 4 0 = some .idle := by decide

theorem witness_BadConfigurationIsRefused :
    ¬ (Cfg.registers { Cfg.default with regColl := 0x01 }).Nodup ∧ ¬ ((0x27 : Byte) = 0x26 ∨ (0x27 : Byte) = 0x52) ∧
    ¬ (Status.error = .noTag ∨ Status.error = .timeout) := by decide

/-- A busy engine between the two exchanges of a transaction, with the select line as given. -/
def insideTransaction (sel : Bool) : State :=
  { answered [⟨0x22, true⟩] with
    bus := { sel := sel, terr := false, rdv := 0, trace := [], answers := [⟨0x22, true⟩], xcount := 0 }
    seq := { busy := true, opr := .version, ph := [.xchg 0x00 true, .selRelease], ret := [] } }

theorem witness_ExchangeNeedsTheSelectLine :
    ∀ sel : Bool, (insideTransaction sel).cfg.wf = true ∧ (insideTransaction sel).moves = [] ∧
      (insideTransaction sel).seq.busy = true ∧ (insideTransaction sel).seq.ph = .xchg 0x00 true :: [.selRelease] ∧
      (insideTransaction sel).bus.sel = sel := by decide

theorem witness_EngineMovesReachWhatTheInstructionGives :
    busyState.cfg.wf = true ∧ busyState.seq.busy = true ∧ busyState.seq.ph = .instr .version :: [] ∧
    ∃ t, exec .version { busyState with seq := { busyState.seq with ph := [] } } = .next t :=
  ⟨by decide, by decide, by decide, _, rfl⟩

theorem witness_HostOperationsEnd : State.reset.cfg.wf = true ∧ State.reset.seq.busy = false := by decide

theorem witness_StepsKeepConfigurationAndHistory : ∃ t, step State.reset = .next t :=
  next_of_gives (p := fun _ => true) (by decide)

theorem witness_StepsKeepTheInvariant :
    Machine.invariant (insideTransaction true) = true ∧
    gives (step (insideTransaction true)) (fun t => Machine.invariant t && t.bus.sel) = true := by decide

theorem witness_SafeStatesNeverStop : busyState.cfg.wf = true ∧ Machine.invariant busyState = true := by decide

end Sys2Proof.Tests
end

/-! PROOFS. The sequencer against `exec` (R3, R27): `Runs` says what a list of lines leaves when it is run one engine move at
a time, every instruction's lines run to what `exec` gives (`runs_instr`), and what holds of every engine move (`Extends`)
so holds of every instruction and of every step. -/

namespace Sys2Proof.Machine

/-! ## Frames and configurations -/

/-- R7, R27, R29: every instruction keeps what `eraseRun` shows. -/
theorem eraseRun_exec {i : Instr} {s t : State} (h : exec i s = .next t) : eraseRun t = eraseRun s := by
  cases i <;> obtain rfl := Host.Outcome.next.inj h
  all_goals simp only [eraseRun_writeReg, eraseRun_readReg, eraseRun_setBitMask, eraseRun_clearBitMask,
    eraseRun_issueCommand, eraseRun_sendRequestFrame, eraseRun_sendAnticollFrame, eraseRun_tocard, eraseRun_calccrc,
    eraseRun_request, eraseRun_anticoll, eraseRun_select, eraseRun_halt, eraseRun_activate, eraseRun_runItems,
    eraseRun_assign]

theorem distinct_iff_nodup (l : List Addr) : distinct l = true ↔ l.Nodup := by
  induction l with
  | nil => simp [distinct]
  | cons a l ih => simp [distinct, ih]

theorem wf_iff (c : Cfg) :
    c.wf = true ↔
      c.registers.Nodup ∧ (c.reqMode = 0x26 ∨ c.reqMode = 0x52) ∧
        (c.reqSilentStatus = .noTag ∨ c.reqSilentStatus = .timeout) := by
  simp [Cfg.wf, Cfg.registersDistinct, Cfg.reqModeNamed, Cfg.silentStatusNamed, distinct_iff_nodup, and_assoc]

/-! ## What one engine move can do (R27, R83) -/

/-- What a line can do: one transport event, one register assignment, or a change of the sequencer, where a `return` sets
the Status as well. -/
theorem runLine_cases {l : Line} {s t : State} (h : runLine l s = .next t) :
    (∃ b e, t = { s with bus := b } ∧ b.trace = s.bus.trace ++ [e]) ∨
    (∃ a, t = assign a s) ∨
    (∃ v q, t = { s with st := v, seq := q }) := by
  cases l
  case selAssert | selRelease | delay => exact .inl ⟨_, _, (Host.Outcome.next.inj h).symm, rfl⟩
  case act a => exact .inr (.inl ⟨a, (Host.Outcome.next.inj h).symm⟩)
  case xchg b keep =>
    simp only [runLine] at h
    split at h
    · exact .inl ⟨_, _, (Host.Outcome.next.inj h).symm, rfl⟩
    · cases h
  case returnIf c v =>
    simp only [runLine] at h
    split at h
    · obtain rfl := Host.Outcome.next.inj h
      cases v <;> exact .inr (.inr ⟨_, _, rfl⟩)
    · exact .inr (.inr ⟨s.st, s.seq, (Host.Outcome.next.inj h).symm⟩)
  case instr i =>
    obtain rfl := Host.Outcome.next.inj h
    unfold enter
    split <;> exact .inr (.inr ⟨_, _, rfl⟩)
  case item | micro | writeTmpOr | writeTmpAndNot => exact .inr (.inr ⟨s.st, _, (Host.Outcome.next.inj h).symm⟩)
  all_goals
    simp only [runLine] at h
    split at h <;> exact .inr (.inr ⟨s.st, _, (Host.Outcome.next.inj h).symm⟩)

/-- An assignment makes no transport event. -/
@[simp] theorem trace_assign (a : Act) (s : State) : (assign a s).bus.trace = s.bus.trace := by
  by_cases h : a = .clearTerr
  · subst h; rfl
  · rw [bus_assign a s h]

/-- `t` has the configuration of `s` and a history that extends that of `s` (R7, R58). -/
def Extends (s t : State) : Prop := t.cfg = s.cfg ∧ ∃ es, t.bus.trace = s.bus.trace ++ es

theorem extends_of_eq {s t : State} (hcfg : t.cfg = s.cfg) (htrace : t.bus.trace = s.bus.trace) : Extends s t :=
  ⟨hcfg, [], by rw [htrace, List.append_nil]⟩

theorem Extends.trans {s t u : State} (h : Extends s t) (h' : Extends t u) : Extends s u := by
  obtain ⟨hc, es, he⟩ := h
  obtain ⟨hc', es', he'⟩ := h'
  exact ⟨hc'.trans hc, es ++ es', by rw [he', he, List.append_assoc]⟩

theorem extends_of_runLine {l : Line} {s t : State} (h : runLine l s = .next t) : Extends s t := by
  obtain ⟨b, e, rfl, hb⟩ | ⟨a, rfl⟩ | ⟨v, q, rfl⟩ := runLine_cases h
  · exact ⟨rfl, [e], hb⟩
  · exact extends_of_eq (cfg_assign a s) (trace_assign a s)
  · exact extends_of_eq rfl rfl

theorem extends_of_engineMove {s t : State} (h : engineMove s = .next t) : Extends s t := by
  have same : ∀ q, Extends s { s with seq := q } := fun _ => extends_of_eq rfl rfl
  unfold engineMove at h
  split at h
  · split at h
    · exact (same _).trans (extends_of_runLine h)
    · split at h <;> (obtain rfl := Host.Outcome.next.inj h; exact same _)
  · obtain rfl := Host.Outcome.next.inj h
    exact same s.seq

/-! ## Runs of engine moves (R3, R27) -/

/-- The registers of `s` under a sequencer and with moves due. -/
def State.under (s : State) (q : Sequencer) (ms : List Move) : State := { s with seq := q, moves := ms }

/-- The registers of `s` under a sequencer. -/
def State.withSeq (s : State) (q : Sequencer) : State := { s with seq := q }

/-- The sequencer with `ls` to run before its own lines. -/
def Sequencer.push (ls : List Line) (q : Sequencer) : Sequencer := { q with ph := ls ++ q.ph }

/-- One engine move leads from `s` to `t`, whatever moves are due after it. -/
def EngineStep (s t : State) : Prop := ∀ ms, engineMove { s with moves := ms } = .next { t with moves := ms }

/-- Some number of engine moves leads from `s` to `t`. -/
abbrev EngineReaches : State → State → Prop := Relation.ReflTransGen EngineStep

theorem EngineStep.extends {s t : State} (h : EngineStep s t) : Extends s t := by
  have := extends_of_engineMove (h [])
  exact this

theorem extends_of_engineReaches {s t : State} (h : EngineReaches s t) : Extends s t := by
  induction h with
  | refl => exact extends_of_eq rfl rfl
  | tail _ hst ih => exact ih.trans hst.extends

/-- Due engine moves run a chain of engine moves (log 1). -/
theorem run_of_engineReaches {s t : State} (h : EngineReaches s t) (hw : s.cfg.wf = true) :
    ∃ n, ∀ ms, Host.Core.run core n { s with moves := List.replicate n .engine ++ ms } =
      .next { t with moves := ms } := by
  induction h using Relation.ReflTransGen.head_induction_on with
  | refl => exact ⟨0, fun _ => rfl⟩
  | @head a b hst _ ih =>
    obtain ⟨n, hn⟩ := ih (by rw [hst.extends.1]; exact hw)
    refine ⟨n + 1, fun ms => ?_⟩
    have hstep : core.step { a with moves := List.replicate (n + 1) .engine ++ ms } =
        .next { b with moves := List.replicate n .engine ++ ms } := (if_pos hw).trans (hst _)
    simp only [Host.Core.run, hstep]
    exact hn ms

/-- The lines `ls`, run from the registers of `s`, leave those of `t`, under every busy sequencer. -/
def Runs (ls : List Line) (s t : State) : Prop :=
  ∀ q : Sequencer, q.busy = true → EngineReaches (s.withSeq (q.push ls)) (t.withSeq q)

/-- The same for all lines an operation has left: it may end by an early `return`. -/
def RunsOut (ls : List Line) (s t : State) : Prop :=
  ∀ q : Sequencer, q.busy = true → EngineReaches (s.withSeq { q with ph := ls }) (t.withSeq { q with ph := [] })

theorem Runs.nil (s : State) : Runs [] s s := fun _ _ => .refl

theorem Runs.append {ls ms : List Line} {s t u : State} (h : Runs ls s t) (h' : Runs ms t u) : Runs (ls ++ ms) s u := by
  intro q hq
  have e : q.push (ls ++ ms) = (q.push ms).push ls := by simp [Sequencer.push]
  rw [e]
  exact (h (q.push ms) hq).trans (h' q hq)

theorem Runs.cons {l : Line} {ls : List Line} {s t u : State} (h : Runs [l] s t) (h' : Runs ls t u) :
    Runs (l :: ls) s u := h.append h'

theorem Runs.runsOut {ls : List Line} {s t : State} (h : Runs ls s t) : RunsOut ls s t := by
  intro q hq
  have := h { q with ph := [] } hq
  rwa [Sequencer.push, List.append_nil] at this

theorem Runs.append_runsOut {ls ms : List Line} {s t u : State} (h : Runs ls s t) (h' : RunsOut ms t u) :
    RunsOut (ls ++ ms) s u := fun q hq => (h { q with ph := ms } hq).trans (h' q hq)

theorem RunsOut.cons {l : Line} {ls : List Line} {s t u : State} (h : Runs [l] s t) (h' : RunsOut ls t u) :
    RunsOut (l :: ls) s u := h.append_runsOut h'

/-- The engine move on a next line. -/
theorem engineMove_push {l : Line} {ls : List Line} {q : Sequencer} (hq : q.busy = true) (s : State) (ms : List Move) :
    engineMove (s.under (q.push (l :: ls)) ms) = runLine l (s.under (q.push ls) ms) := if_pos hq

/-- A line that does its work in one move. -/
theorem Runs.of_line {l : Line} {s t : State} (h : ∀ q ms, runLine l (s.under q ms) = .next (t.under q ms)) :
    Runs [l] s t := fun q hq => .single fun ms => (engineMove_push hq s ms).trans (h q ms)

/-- A line that puts other lines in its place. -/
theorem Runs.pushedBy {l : Line} {ls : List Line} {s t : State} (hr : Runs ls s t)
    (h : ∀ q ms, runLine l (s.under q ms) = .next (pushLines ls (s.under q ms))) : Runs [l] s t :=
  fun q hq => .head (b := s.withSeq (q.push ls)) (fun ms => (engineMove_push hq s ms).trans (h q ms)) (hr q hq)

/-! ## The lines one by one -/

theorem assign_under (a : Act) (s : State) (q : Sequencer) (ms : List Move) :
    assign a (s.under q ms) = (assign a s).under q ms := by
  cases a
  case anticollCheck => simp only [assign, apply_ite (State.under · q ms)]; rfl
  case selectCheck => simp only [assign, apply_ite (State.under · q ms)]; rfl
  all_goals rfl

theorem holds_under (c : Cond) (s : State) (q : Sequencer) (ms : List Move) : c.holds (s.under q ms) = c.holds s := by
  cases c <;> rfl

theorem expansion_under (m : MicroOp) (s : State) (q : Sequencer) (ms : List Move) :
    m.expansion (s.under q ms) = m.expansion s := by
  cases m <;> rfl

theorem runs_act (a : Act) (s : State) : Runs [.act a] s (assign a s) :=
  .of_line fun q ms => congrArg Host.Outcome.next (assign_under a s q ms)

theorem runs_delay (ms : BitVec 16) (s : State) : Runs [.delay ms] s (delayMs ms s) := .of_line fun _ _ => rfl

theorem runs_xchg (t : Byte) (keep : Bool) (s : State) (hs : s.bus.sel = true) :
    Runs [.xchg t keep] s { s with bus := s.bus.xchg t keep } := .of_line fun _ _ => if_pos hs

/-- R86: the four events of a transaction; both exchanges fall between the assertion and the release. -/
theorem runs_transaction (t t' : Byte) (keep keep' : Bool) (s : State) :
    Runs [.selAssert, .xchg t keep, .xchg t' keep', .selRelease] s
      { s with bus := ((s.bus.assertSel.xchg t keep).xchg t' keep').releaseSel } :=
  have hassert : Runs [.selAssert] s { s with bus := s.bus.assertSel } := .of_line fun _ _ => rfl
  hassert.cons <| (runs_xchg t keep _ rfl).cons <| (runs_xchg t' keep' _ rfl).cons <| .of_line fun _ _ => rfl

/-- R27 (c): an instruction that is no sub-operation runs inside the line that uses it. -/
theorem Runs.inlined {i : Instr} {s t : State} (hi : subOpr i = none) (h : Runs (body s.cfg i) s t) :
    Runs [.instr i] s t := by
  refine h.pushedBy fun q ms => ?_
  simp only [runLine, enter, hi]
  rfl

/-- R27 (b): a sub-operation is called, runs out, and its caller goes on where it stood. -/
theorem RunsOut.call {i : Instr} {o : Opr} {s t : State} (hi : subOpr i = some o) (h : RunsOut (body s.cfg i) s t) :
    Runs [.instr i] s t := by
  intro q hq
  let callee : Sequencer := { q with opr := o, ret := ⟨q.opr, q.ph⟩ :: q.ret }
  have hcall : EngineStep (s.withSeq (q.push [.instr i])) (s.withSeq { callee with ph := body s.cfg i }) := fun ms => by
    refine (engineMove_push hq s ms).trans ?_
    simp only [runLine, enter, hi]
    rfl
  have hreturn : EngineStep (t.withSeq { callee with ph := [] }) (t.withSeq q) := fun _ => if_pos hq
  exact .head hcall ((h callee hq).tail hreturn)

theorem runs_wrreg (a : Addr) (v : Byte) (s : State) : Runs [.instr (.wrreg a v)] s (writeReg a v s) :=
  .inlined rfl (runs_transaction _ _ _ _ s)

theorem runs_rdreg (a : Addr) (s : State) : Runs [.instr (.rdreg a)] s (readReg a s) :=
  .inlined rfl (runs_transaction _ _ _ _ s)

/-- A read and the assignment that uses its byte. -/
theorem runs_rdreg_act (a : Addr) (x : Act) (s : State) :
    Runs [.instr (.rdreg a), .act x] s (assign x (readReg a s)) := (runs_rdreg a s).cons (runs_act x _)

theorem runs_setbm (a : Addr) (m : Byte) (s : State) : Runs [.instr (.setbm a m)] s (setBitMask a m s) :=
  have hw : Runs [.writeTmpOr a m] (assign .tmp (readReg a s)) (setBitMask a m s) :=
    (runs_wrreg a _ _).pushedBy fun _ _ => rfl
  ((runs_rdreg_act a .tmp s).append hw).runsOut.call rfl

theorem runs_clrbm (a : Addr) (m : Byte) (s : State) : Runs [.instr (.clrbm a m)] s (clearBitMask a m s) :=
  have hw : Runs [.writeTmpAndNot a m] (assign .tmp (readReg a s)) (clearBitMask a m s) :=
    (runs_wrreg a _ _).pushedBy fun _ _ => rfl
  ((runs_rdreg_act a .tmp s).append hw).runsOut.call rfl

theorem runs_itemLine (it : Item) (s : State) : Runs [itemLine it] s (runItem it s) := by
  cases it with
  | write a v => exact runs_wrreg a v s
  | setBits a m => exact runs_setbm a m s
  | clearBits a m => exact runs_clrbm a m s
  | delay ms => exact runs_delay ms s

theorem runs_item (it : Item) (s : State) : Runs [.item it] s (runItem it s) :=
  (runs_itemLine it s).pushedBy fun _ _ => rfl

theorem runs_items (l : List Item) (s : State) : Runs (l.map .item) s (runItems l s) := by
  induction l generalizing s with
  | nil => exact .nil s
  | cons it l ih => exact (runs_item it s).cons (ih _)

theorem runs_micro (m : MicroOp) (s : State) : Runs [.micro m] s (runMicro m s) :=
  (runs_itemLine _ s).pushedBy fun q ms => by rw [runLine, expansion_under]

theorem runs_cmdInstr (k : ChipCmd) (s : State) : Runs [.instr (cmdInstr k)] s (issueCommand k s) := by
  cases k <;> exact .inlined rfl (runs_wrreg _ _ s)

/-! ## The loops -/

/-- R95, R112: the load loop with `n` bytes left. -/
theorem runs_loadLoop (n : Nat) (s : State) (h : s.idx.toNat + n = s.txlen.val) :
    Runs [.loadLoop] s (loadFifo n s) := by
  induction n generalizing s with
  | zero => exact .of_line fun _ _ => if_neg (by show ¬ s.idx.toNat < s.txlen.val; omega)
  | succ n ih =>
    have hbound := s.txlen.isLt
    have hidx : (s.idx + 1).toNat = s.idx.toNat + 1 := by rw [BitVec.toNat_add]; simp; omega
    have hgo : s.idx.toNat < s.txlen.val := by omega
    have hloop := ih (assign .idxNext (writeReg s.cfg.regFifoData (s.txAt s.idx.toNat) s)) (by
      show (s.idx + 1).toNat + n = s.txlen.val; omega)
    exact ((runs_wrreg _ _ s).cons ((runs_act .idxNext _).cons hloop)).pushedBy fun _ _ => if_pos hgo

theorem runs_loadFrame (s : State) : Runs [.act .idxZero, .loadLoop] s (loadFrame s) :=
  (runs_act .idxZero s).cons (runs_loadLoop s.txlen.val _ (Nat.zero_add _))

/-- R97, R113: the poll loop with `n` reads left. -/
theorem runs_pollLoop (k : PollKind) (n : Nat) (s : State) (hh : s.hit = false)
    (h : s.cnt.toNat + n = (k.budget s.cfg).toNat) : Runs [.pollLoop k] s (pollFor k n s) := by
  induction n generalizing s with
  | zero =>
    refine .of_line fun _ _ => if_neg ?_
    show ¬ (decide (s.cnt < k.budget s.cfg) && !s.hit) = true
    simp [BitVec.lt_def]; omega
  | succ n ih =>
    have hbound := (k.budget s.cfg).isLt
    have hcnt : (s.cnt + 1).toNat = s.cnt.toNat + 1 := by rw [BitVec.toNat_add]; simp; omega
    have hgo : (decide (s.cnt < k.budget s.cfg) && !s.hit) = true := by simp [hh, BitVec.lt_def]; omega
    have hloop : Runs [.pollLoop k] (pollRead k s) (pollFor k (n + 1) s) := by
      rw [pollFor]
      by_cases hhit : (pollRead k s).hit = true
      · rw [if_pos hhit]
        refine .of_line fun _ _ => if_neg ?_
        show ¬ (decide _ && !(pollRead k s).hit) = true
        simp [hhit]
      · rw [if_neg hhit]
        refine ih _ (by simpa using hhit) ?_
        show (s.cnt + 1).toNat + n = (k.budget s.cfg).toNat
        omega
    exact ((runs_rdreg_act _ (.pollTest k) s).append hloop).pushedBy fun _ _ => if_pos hgo

theorem runs_poll (k : PollKind) (s : State) : Runs [.act .pollInit, .pollLoop k] s (poll k s) :=
  (runs_act .pollInit s).cons (runs_pollLoop k _ _ rfl (Nat.zero_add _))

/-- R103: the drain's data loop with `n` bytes left. -/
theorem runs_drainLoop (n : Nat) (s : State) (hcap : s.lvl.toNat ≤ 16) (h : s.idx.toNat + n = s.lvl.toNat) :
    Runs [.drainLoop] s (drainFifo n s) := by
  induction n generalizing s with
  | zero => exact .of_line fun _ _ => if_neg (by show ¬ s.idx.toNat < s.lvl.toNat; omega)
  | succ n ih =>
    have hidx : (s.idx + 1).toNat = s.idx.toNat + 1 := by rw [BitVec.toNat_add]; simp; omega
    have hgo : s.idx.toNat < s.lvl.toNat := by omega
    have hloop := ih (assign .idxNext (assign .rxPut (readReg s.cfg.regFifoData s))) hcap (by
      show (s.idx + 1).toNat + n = s.lvl.toNat; omega)
    exact ((runs_rdreg_act _ .rxPut s).append ((runs_act .idxNext _).cons hloop)).pushedBy fun _ _ => if_pos hgo

theorem levelCap_le (l : BitVec 8) : (levelCap l).toNat ≤ 16 := by
  unfold levelCap
  split
  · decide
  · rename_i h
    simpa [BitVec.lt_def] using h

/-- R103: the drain. -/
theorem runs_drain (s : State) : Runs (drainLines s.cfg) s (drain s) :=
  (runs_rdreg_act _ .lvl s).append <| (runs_rdreg_act _ .lastb _).append <|
    (runs_act .lvlFloor _).cons <| (runs_act .rxlen _).cons <| (runs_act .lvlCap _).cons <|
    (runs_act .idxZero _).cons <|
    runs_drainLoop (drainHead s).lvl.toNat (drainHead s) (levelCap_le _) (Nat.zero_add _)

/-! ## The operations (R92 to R138) -/

/-- A `return` whose condition holds: what is left of the operation is dropped. -/
theorem runsOut_return {c : Cond} {s : State} (v : Option Status) (ls : List Line) (hc : c.holds s = true) :
    RunsOut (.returnIf c v :: ls) s (v.elim s fun x => assign (.statusIs x) s) := by
  intro q hq
  refine .single fun ms => (if_pos hq).trans ((if_pos ((holds_under c s _ ms).trans hc)).trans ?_)
  cases v <;> rfl

/-- A `return` whose condition fails does nothing. -/
theorem runs_returnIf {c : Cond} {s : State} (v : Option Status) (hc : ¬ c.holds s = true) : Runs [.returnIf c v] s s :=
  .of_line fun q ms => if_neg (by rwa [holds_under])

/-- Steps 1 to 3 and the issue of step 4 (R94 to R96). -/
theorem runs_tocardIssueLines (cmd : ChipCmd) (s : State) :
    Runs (tocardIssueLines cmd) s (issueCommand cmd (loadFrame (tocardPrelude cmd s))) :=
  (runs_act (.masks cmd) s).cons <| (runs_act .clearRx _).cons <| (runs_micro .writeIrqEnable _).cons <|
    (runs_micro .chipIdle _).cons <| (runs_micro .clearCollFlag _).cons <| (runs_micro .clearIrqs _).cons <|
    (runs_micro .flushFifo _).cons <| (runs_loadFrame _).append (runs_cmdInstr cmd _)

theorem runs_tocardSendLines (cmd : ChipCmd) (s : State) :
    Runs (tocardSendLines cmd) s (if cmd = .transceive then runMicro .startSend s else s) := by
  unfold tocardSendLines
  split
  · exact runs_micro .startSend s
  · exact .nil s

theorem runs_drainIfClean (s : State) :
    Runs [.drainIfClean] s (if !anyBit s.errv 0x1B then drain s else s) := by
  by_cases hb : anyBit s.errv 0x1B = true
  · rw [hb]
    exact .of_line fun _ _ => if_pos hb
  · rw [Bool.not_eq_true] at hb
    rw [hb]
    exact (runs_drain s).pushedBy fun _ _ => if_neg (by rw [Bool.not_eq_true]; exact hb)

/-- Steps 9 and 10 (R101 to R103). -/
theorem runs_tocardConclude (cmd : ChipCmd) (s : State) :
    Runs (.act .judge :: tocardEndLines cmd) s (tocardConclude cmd s) := by
  refine (runs_act .judge s).cons ?_
  unfold tocardEndLines tocardConclude
  by_cases hc : cmd = .transceive
  · simp only [hc, if_true, decide_true, Bool.true_and]
    exact (runs_drainIfClean _).cons (runs_act .collision _)
  · simp only [hc, if_false, decide_false, Bool.false_and, Bool.false_eq_true]
    exact runs_act .collision _

/-- Steps 7 to 10 on the latched bytes (R99 to R103). -/
theorem runsOut_tocardDecide (cmd : ChipCmd) (s : State) :
    RunsOut
      (.returnIf .errorBits (some .error) :: .returnIf .noHit (some .timeout) :: .returnIf .timerOnly (some .timeout) ::
        .act .judge :: tocardEndLines cmd) s (tocardDecide cmd s) := by
  unfold tocardDecide
  split_ifs with herr hhit htimer
  · exact runsOut_return _ _ herr
  · exact .cons (runs_returnIf _ herr) (runsOut_return _ _ hhit)
  · exact .cons (runs_returnIf _ herr) (.cons (runs_returnIf _ hhit) (runsOut_return _ _ htimer))
  · exact .cons (runs_returnIf _ herr) (.cons (runs_returnIf _ hhit) (.cons (runs_returnIf _ htimer)
      (runs_tocardConclude cmd s).runsOut))

theorem cfg_tocardIssue (cmd : ChipCmd) (s : State) : (tocardIssue cmd s).cfg = s.cfg := by
  obtain ⟨hcfg, _⟩ := eraseLoops_fields (eraseLoops_issue cmd s)
  exact hcfg

/-- Step 6 and the read of step 7 (R98, R99). -/
theorem runs_tocardStop (s : State) :
    Runs [.micro .stopSend, .instr (.rdreg s.cfg.regError), .act .errv] s (tocardStop s) := by
  refine (runs_micro .stopSend s).cons ?_
  have h := runs_rdreg_act (runMicro .stopSend s).cfg.regError .errv (runMicro .stopSend s)
  rwa [cfg_runMicro] at h

/-- TOCARD (R92). -/
theorem runsOut_tocard (cmd : ChipCmd) (s : State) : RunsOut (body s.cfg (.tocard cmd)) s (tocard cmd s) := by
  have hissue := (runs_tocardIssueLines cmd s).append (runs_tocardSendLines cmd _)
  have hcfg : (poll .irq (tocardIssue cmd (tocardPrelude cmd s))).cfg = s.cfg := by
    obtain ⟨_, hprelude, _⟩ := tocardPrelude_ran cmd s
    rw [cfg_poll, cfg_tocardIssue, hprelude]
  have hstop := runs_tocardStop (poll .irq (tocardIssue cmd (tocardPrelude cmd s)))
  rw [hcfg] at hstop
  have h := (hissue.append ((runs_poll .irq _).append hstop)).append_runsOut (runsOut_tocardDecide cmd _)
  rw [List.append_assoc, List.append_assoc] at h
  exact h

theorem runs_tocard (cmd : ChipCmd) (s : State) : Runs [.instr (.tocard cmd)] s (tocard cmd s) :=
  (runsOut_tocard cmd s).call rfl

/-- The two result reads of CALCCRC (R114). -/
theorem runs_calccrcResult (s : State) :
    Runs [.instr (.rdreg s.cfg.regCrcResultL), .act .crcLo, .instr (.rdreg s.cfg.regCrcResultH), .act .crcHi,
      .act (.statusIs .ok)] s (calccrcResult s) :=
  (runs_rdreg_act s.cfg.regCrcResultL .crcLo s).append <|
    (runs_rdreg_act s.cfg.regCrcResultH .crcHi _).append <| runs_act (.statusIs .ok) _

/-- CALCCRC (R110). -/
theorem runsOut_calccrc (s : State) : RunsOut (body s.cfg .calccrc) s (calccrc s) := by
  have hissue : Runs _ s (calccrcIssue s) :=
    (runs_micro .clearCrcIrq s).cons <| (runs_micro .flushFifo _).cons <| (runs_micro .chipIdle _).cons <|
      (runs_loadFrame _).append <| runs_cmdInstr .calcCrc _
  have hpoll := hissue.append (runs_poll .crc (calccrcIssue s))
  have hcfg : (poll .crc (calccrcIssue s)).cfg = s.cfg := by simp [calccrcIssue, issueCommand]
  refine hpoll.append_runsOut ?_
  unfold calccrc
  dsimp only
  split_ifs with hhit
  · exact runsOut_return (some .timeout) _ hhit
  · have h := (runs_calccrcResult (poll .crc (calccrcIssue s))).runsOut
    rw [hcfg] at h
    exact .cons (runs_returnIf _ hhit) h

theorem runs_calccrc (s : State) : Runs [.instr .calccrc] s (calccrc s) := (runsOut_calccrc s).call rfl

/-- A frame put in TXBUF and transceived (R67 to R71). -/
theorem runs_act_tocard (a : Act) (s : State) :
    Runs [.act a, .instr (.tocard .transceive)] s (tocard .transceive (assign a s)) :=
  (runs_act a s).cons (runs_tocard .transceive _)

/-- A frame put in TXBUF and its CRC computed (R124, R127). -/
theorem runs_act_calccrc (a : Act) (s : State) : Runs [.act a, .instr .calccrc] s (calccrc (assign a s)) :=
  (runs_act a s).cons (runs_calccrc _)

theorem runs_requestFrame (m : Byte) (s : State) : Runs (requestFrameLines s.cfg m) s (sendRequestFrame m s) :=
  (runs_item _ s).cons (runs_act_tocard _ _)

theorem runs_anticollFrame (s : State) : Runs (anticollFrameLines s.cfg) s (sendAnticollFrame s) :=
  (runs_item _ s).cons (runs_act_tocard _ _)

/-- REQUEST (R118). -/
theorem runs_request (m : Byte) (s : State) : Runs [.instr (.request m)] s (request m s) :=
  have h : Runs (body s.cfg (.request m)) s (request m s) :=
    (runs_requestFrame m s).append ((runs_act .requestLength _).cons (runs_act .requestSilent _))
  h.runsOut.call rfl

/-- ANTICOLL (R121). -/
theorem runs_anticoll (s : State) : Runs [.instr .anticoll] s (anticoll s) :=
  have h : Runs (body s.cfg .anticoll) s (anticoll s) := (runs_anticollFrame s).append (runs_act .anticollCheck _)
  h.runsOut.call rfl

/-- SELECT (R124). -/
theorem runs_select (s : State) : Runs [.instr .select] s (select s) := by
  suffices h : RunsOut (body s.cfg .select) s (select s) from h.call rfl
  refine (runs_act_calccrc .txSelect s).append_runsOut ?_
  unfold select
  dsimp only
  split_ifs with hok
  · exact runsOut_return none _ hok
  · exact .cons (runs_returnIf _ hok) ((runs_act_tocard _ _).append (runs_act .selectCheck _)).runsOut

/-- HALT (R127). -/
theorem runs_halt (s : State) : Runs [.instr .halt] s (halt s) :=
  have h : Runs (body s.cfg .halt) s (halt s) := (runs_act_calccrc _ s).append (runs_act_tocard _ _)
  h.runsOut.call rfl

/-- A guarded step of CHECKCARD (R135). -/
theorem runs_callIfOk {i : Instr} {f : State → State} (hf : ∀ s, Runs [.instr i] s (f s)) (s : State) :
    Runs [.callIfOk i] s (stepIfOk f s) := by
  unfold stepIfOk
  split_ifs with hok
  · exact ((hf s).cons (runs_act .keepStatus _)).pushedBy fun _ _ => if_pos hok
  · exact .of_line fun _ _ => if_neg hok

/-- CHECKCARD (R135). -/
theorem runs_checkcard (s : State) :
    Runs (body s.cfg .checkcard) s (assign .publishStatus (halt (activate s))) :=
  (runs_act .clearCard s).cons <| (runs_request s.cfg.reqMode _).cons <| (runs_act .keepStatus _).cons <|
    (runs_callIfOk runs_anticoll _).cons <| (runs_callIfOk runs_select _).cons <| (runs_halt _).cons <|
    runs_act .publishStatus _

/-- R3, R27: run line by line, an instruction leaves the registers `exec` gives it whole. -/
theorem runs_instr {i : Instr} {s t : State} (h : exec i s = .next t) : Runs [.instr i] s t := by
  cases i <;> obtain rfl := Host.Outcome.next.inj h
  case wrreg a v => exact runs_wrreg a v s
  case rdreg a => exact runs_rdreg a s
  case cmdIdle => exact runs_cmdInstr .idle s
  case cmdCalccrc => exact runs_cmdInstr .calcCrc s
  case cmdTransmit => exact runs_cmdInstr .transmit s
  case cmdReceive => exact runs_cmdInstr .receive s
  case cmdTransceive => exact runs_cmdInstr .transceive s
  case cmdMfauthent => exact runs_cmdInstr .mfAuthent s
  case cmdSoftreset => exact runs_cmdInstr .softReset s
  case frameReqa => exact (runs_requestFrame 0x26 s).inlined rfl
  case frameReqall => exact (runs_requestFrame 0x52 s).inlined rfl
  case frameAnticoll => exact (runs_anticollFrame s).inlined rfl
  case frameSelect u lo hi => exact (runs_act_tocard _ s).inlined rfl
  case frameHalt lo hi => exact (runs_act_tocard _ s).inlined rfl
  case init => exact ((runs_act .clearTerr s).cons (runs_items s.cfg.initProgram _)).inlined rfl
  case version => exact (runs_rdreg_act s.cfg.regVersion .version s).inlined rfl
  case checkcard => exact (runs_checkcard s).inlined rfl
  case compareids => exact (runs_act .compare s).inlined rfl
  case request m => exact runs_request m s
  case anticoll => exact runs_anticoll s
  case select => exact runs_select s
  case halt => exact runs_halt s
  case tocard cmd => exact runs_tocard cmd s
  case calccrc => exact runs_calccrc s
  case setbm a m => exact runs_setbm a m s
  case clrbm a m => exact runs_clrbm a m s
  case idle => exact (Runs.nil s).inlined rfl

/-! ## What a step keeps (R7, R58) -/

/-- The engine moves of an instruction only add to the history, so the instruction run whole does too. -/
theorem extends_of_exec {i : Instr} {s t : State} (h : exec i s = .next t) : Extends s t := by
  have hreach := runs_instr h { Sequencer.idle with busy := true } rfl
  have := extends_of_engineReaches hreach
  exact this

theorem extends_startEvent (opc : BitVec 2) (a b : CardId) (s : State) : Extends s (startEvent opc a b s) := by
  unfold startEvent
  split <;> exact extends_of_eq rfl rfl

theorem extends_of_step {s t : State} (h : step s = .next t) : Extends s t := by
  have taken : ∀ ms, Extends s { s with moves := ms } := fun _ => extends_of_eq rfl rfl
  unfold step at h
  split at h
  · unfold stepMove at h
    split at h
    · obtain rfl := Host.Outcome.next.inj h
      exact (taken _).trans (extends_startEvent _ _ _ _)
    · obtain rfl := Host.Outcome.next.inj h
      exact ⟨rfl, _, rfl⟩
    · exact (taken _).trans (extends_of_engineMove h)
    · split at h
      · have hf : Extends s s.afterFetch := by
          unfold State.afterFetch
          split <;> exact extends_of_eq rfl rfl
        exact hf.trans (extends_of_exec h)
      · exact extends_of_engineMove h
  · cases h

/-! ## The obligations -/

/-- Settles O36: an instruction changes nothing that `eraseRun` shows. -/
theorem instructionsKeepWhatIsNotTheirs : Obligations.InstructionsKeepWhatIsNotTheirs :=
  fun _ _ _ h => eraseRun_fields (eraseRun_exec h)

/-- Settles O48: the step accepts exactly the configurations that `wf_iff` describes. -/
theorem badConfigurationIsRefused : Obligations.BadConfigurationIsRefused :=
  fun s hbad => if_neg fun hw => hbad ((wf_iff s.cfg).1 hw)

/-- Settles O50: the instruction's line runs to the registers `exec` gives, under the sequencer that `exec` keeps. -/
theorem engineMovesReachWhatTheInstructionGives : Obligations.EngineMovesReachWhatTheInstructionGives := by
  intro s t i rest hw hbusy hph hexec
  let q : Sequencer := { s.seq with ph := rest }
  have hq : q.push [.instr i] = s.seq := by simp only [Sequencer.push, List.singleton_append, q, ← hph]
  obtain ⟨_, ht : t.seq = q, _⟩ := instructionsKeepWhatIsNotTheirs i _ t hexec
  have hreach := runs_instr hexec q hbusy
  rw [hq, ← ht] at hreach
  obtain ⟨n, hn⟩ := run_of_engineReaches hreach hw
  have h := hn []
  rw [List.append_nil] at h
  exact ⟨n, h⟩

/-- Settles O52: each kind of move keeps the configuration and extends the history. -/
theorem stepsKeepConfigurationAndHistory : Obligations.StepsKeepConfigurationAndHistory :=
  fun _ _ h => extends_of_step h

end Sys2Proof.Machine

/-! PROOFS. The invariant of a safe run (R23, R27, R28): every line the engine runs keeps it, so every engine move does, so an
instruction run whole does (`runs_instr`), so every step does. -/

namespace Sys2Proof.Machine

/-! ## The lines of a transaction (R84, R85, R86) -/

/-- After the assertion of select the rest of its transaction is left to run. -/
theorem inTransaction_of_released_selAssert {ls : List Line} (h : released (.selAssert :: ls) = true) :
    inTransaction ls = true := by
  unfold released at h
  split at h <;> simp_all [inTransaction]

theorem inTransaction_of_xchg {t : Byte} {keep : Bool} {ls : List Line}
    (h : inTransaction (.xchg t keep :: ls) = true) : inTransaction ls = true := by
  unfold inTransaction at h
  split at h <;> simp_all [inTransaction]

/-- The next line was a transport event of a transaction: the invariant holds after it if what is left fits the select line. -/
theorem invariant_afterEvent {s : State} {l : Line} {ls : List Line} (b : Bus) (hb : s.seq.busy = true)
    (hp : s.seq.ph = l :: ls) (hi : invariant s = true)
    (hl : (if b.sel then inTransaction ls else released ls) = true) :
    invariant { dropLine s with bus := b } = true := by
  simp only [invariant, selInvariant, busyInvariant, depthOk_eq, hb, hp, linesDepth, dropLine, List.tail_cons, if_true,
    Bool.and_eq_true, decide_eq_true_eq] at hi ⊢
  obtain ⟨⟨⟨⟨_, hret⟩, hopr⟩, hdepth, hcallers⟩, huid⟩ := hi
  have hrest := of_decide_eq_true hdepth
  exact ⟨⟨⟨⟨hl, hret⟩, hopr⟩, by omega, hcallers⟩, huid⟩

/-! ## The other lines -/

theorem released_itemLine (it : Item) : released [itemLine it] = true := by cases it <;> rfl

/-- An access calls nothing but SETBM and CLRBM, which call nothing. -/
theorem linesDepth_itemLine (it : Item) : linesDepth [itemLine it] ≤ 1 := by
  cases it <;> simp [itemLine, linesDepth, lineDepth, callDepth]

section
variable {l : Line} {s t : State} (hb : s.seq.busy = true) (hs : s.bus.sel = false)
  (hd : lineDepth l + s.seq.ret.length ≤ 3) (hi : invariant s = true)
include hi

/-- An assignment leaves the sequencer and the select line as they are, and no wrong checksum. -/
theorem invariant_assign (a : Act) : invariant (assign a s) = true := by
  obtain ⟨_, hseq, _⟩ := eraseRun_fields (eraseRun_assign a s)
  have hsel : (assign a s).bus.sel = s.bus.sel := by
    by_cases ha : a = .clearTerr
    · subst ha; rfl
    · rw [bus_assign a s ha]
  exact invariant_of_same hseq hsel (checksumOk_assign a s) hi

include hb hs

/-- R9: an early `return` drops the rest of the operation. -/
theorem invariant_returnNow : invariant (returnNow s) = true := by
  obtain ⟨_, hret, hopr, hoprs, hdepth, hcallers, huid⟩ := (invariant_released s hb hs).1 hi
  have hdepth' : 0 + s.seq.ret.length ≤ 3 := by omega
  exact (invariant_released (returnNow s) hb hs).2 ⟨rfl, hret, hopr, hoprs, hdepth', hcallers, huid⟩

include hd

/-- A line puts other lines in its place that are whole transactions and no deeper than itself. -/
theorem invariant_replaceLine {ls : List Line} (hr : released ls = true) (hls : linesDepth ls ≤ lineDepth l) :
    invariant (pushLines ls s) = true := invariant_pushLines s ls hr hb hs (by omega) hi

/-- A line that is no event of a transaction, run between transactions. -/
theorem invariant_runLine_between (hx : ∀ b k, l ≠ .xchg b k) (ha : l ≠ .selAssert) (hr : l ≠ .selRelease)
    (h : runLine l s = .next t) : invariant t = true := by
  cases l
  case selAssert => exact absurd rfl ha
  case xchg b k => exact absurd rfl (hx b k)
  case selRelease => exact absurd rfl hr
  case delay ms =>
    obtain rfl := Host.Outcome.next.inj h
    exact invariant_of_same rfl rfl id hi
  case act a =>
    obtain rfl := Host.Outcome.next.inj h
    exact invariant_assign hi a
  case instr i =>
    obtain rfl := Host.Outcome.next.inj h
    exact invariant_enter i s hb hs hd hi
  case item | micro =>
    obtain rfl := Host.Outcome.next.inj h
    exact invariant_replaceLine hb hs hd hi (released_itemLine _) (linesDepth_itemLine _)
  case writeTmpOr | writeTmpAndNot =>
    obtain rfl := Host.Outcome.next.inj h
    exact invariant_replaceLine hb hs hd hi rfl (Nat.le_refl 0)
  case loadLoop | pollLoop | drainLoop =>
    simp only [runLine] at h
    split at h <;> obtain rfl := Host.Outcome.next.inj h
    · exact invariant_replaceLine hb hs hd hi rfl (Nat.le_refl 0)
    · exact hi
  case drainIfClean =>
    simp only [runLine] at h
    split at h <;> obtain rfl := Host.Outcome.next.inj h
    · exact hi
    · exact invariant_replaceLine hb hs hd hi rfl (Nat.le_refl 0)
  case callIfOk i =>
    simp only [runLine] at h
    split at h <;> obtain rfl := Host.Outcome.next.inj h
    · exact invariant_replaceLine hb hs hd hi rfl (by simp [linesDepth, lineDepth])
    · exact hi
  case returnIf c v =>
    simp only [runLine] at h
    split at h <;> obtain rfl := Host.Outcome.next.inj h
    · cases v with
      | none => exact invariant_returnNow hb hs hi
      | some x => exact invariant_returnNow (s := assign (.statusIs x) s) hb hs (invariant_assign hi _)
    · exact hi

end

/-! ## Moves and steps -/

/-- R27, R83: running the next line keeps the invariant. -/
theorem invariant_runLine {s t : State} {l : Line} {ls : List Line} (hb : s.seq.busy = true) (hp : s.seq.ph = l :: ls)
    (hi : invariant s = true) (h : runLine l (dropLine s) = .next t) : invariant t = true := by
  have hfit : (if s.bus.sel then inTransaction (l :: ls) else released (l :: ls)) = true := by
    simp only [invariant, selInvariant, hp, Bool.and_eq_true] at hi
    obtain ⟨⟨⟨⟨hfit, _⟩, _⟩, _⟩, _⟩ := hi
    exact hfit
  by_cases ha : l = .selAssert
  · subst ha
    obtain rfl := Host.Outcome.next.inj h
    have hsel : s.bus.sel = false := by
      cases hsel : s.bus.sel <;> simp_all [inTransaction]
    rw [hsel] at hfit
    exact invariant_afterEvent _ hb hp hi (inTransaction_of_released_selAssert hfit)
  by_cases hr : l = .selRelease
  · subst hr
    obtain rfl := Host.Outcome.next.inj h
    refine invariant_afterEvent _ hb hp hi (?_ : released ls = true)
    cases hsel : s.bus.sel <;> simp_all [inTransaction, released]
  by_cases hx : ∃ b k, l = .xchg b k
  · obtain ⟨b, k, rfl⟩ := hx
    simp only [runLine] at h
    split at h
    · next hsel =>
      obtain rfl := Host.Outcome.next.inj h
      change s.bus.sel = true at hsel
      rw [if_pos hsel] at hfit
      exact invariant_afterEvent _ hb hp hi ((if_pos hsel).trans (inTransaction_of_xchg hfit))
    · cases h
  obtain ⟨hdrop, hsel, hdepth⟩ := invariant_dropLine s l ls hb hp (fun b k e => hx ⟨b, k, e⟩) ha hr hi
  exact invariant_runLine_between (s := dropLine s) hb hsel hdepth hdrop (fun b k e => hx ⟨b, k, e⟩) ha hr h

/-- With no line left the engine is between transactions (R28). -/
theorem sel_of_noLines {s : State} (hp : s.seq.ph = []) (hi : invariant s = true) : s.bus.sel = false := by
  cases hsel : s.bus.sel <;> simp_all [invariant, selInvariant, inTransaction]

theorem checksumOk_of_invariant {s : State} (hi : invariant s = true) : checksumOk s.uid = true := by
  simp only [invariant, Bool.and_eq_true] at hi
  exact hi.2

/-- R27 (b): the caller goes on where it stood. -/
theorem invariant_popFrame {s : State} {f : Frame} {r : List Frame} (hb : s.seq.busy = true) (hp : s.seq.ph = [])
    (hret : s.seq.ret = f :: r) (hi : invariant s = true) : invariant (popFrame f r s) = true := by
  have hs := sel_of_noLines hp hi
  obtain ⟨_, hrel, _, hoprs, _, hcallers, huid⟩ := (invariant_released s hb hs).1 hi
  rw [hret, List.all_cons, Bool.and_eq_true] at hrel hoprs
  rw [hret, callersOk, depthOk_eq, Bool.and_eq_true, decide_eq_true_eq] at hcallers
  exact (invariant_released (popFrame f r s) hb hs).2
    ⟨hrel.1, hrel.2, bne_iff_ne.1 hoprs.1, hoprs.2, hcallers.1, hcallers.2, huid⟩

theorem checksumOk_zero : checksumOk CardId.zero = true := by decide

/-- R27 (d): an idle sequencer with select released. -/
theorem invariant_idle {s : State} (hq : s.seq = Sequencer.idle) (hs : s.bus.sel = false)
    (huid : checksumOk s.uid = true) : invariant s = true := by
  simp [invariant, selInvariant, busyInvariant, hq, hs, huid, released, depthOk, linesDepth]

theorem invariant_engineMove {s t : State} (hi : invariant s = true) (h : engineMove s = .next t) :
    invariant t = true := by
  unfold engineMove at h
  split at h
  · next hb =>
    split at h
    · next l ls hp => exact invariant_runLine hb hp hi h
    · next hp =>
      split at h <;> obtain rfl := Host.Outcome.next.inj h
      · next f r hret => exact invariant_popFrame hb hp hret hi
      · have hs := sel_of_noLines hp hi
        have huid := checksumOk_of_invariant hi
        exact invariant_idle rfl hs huid
  · obtain rfl := Host.Outcome.next.inj h
    exact hi

theorem invariant_engineReaches {s t : State} (hi : invariant s = true) (h : EngineReaches s t) :
    invariant t = true := by
  induction h with
  | refl => exact hi
  | @tail u v _ hst ih =>
    have huv := invariant_engineMove (s := { u with moves := [] }) ih (hst [])
    exact huv

/-- The next line's instruction, run whole, keeps the invariant because its engine moves do. -/
theorem invariant_execLine {s t : State} {i : Instr} {ls : List Line} (hb : s.seq.busy = true)
    (hp : s.seq.ph = .instr i :: ls) (hi : invariant s = true) (h : exec i (dropLine s) = .next t) :
    invariant t = true := by
  obtain ⟨_, hseq, _⟩ := eraseRun_fields (eraseRun_exec h)
  have hq : (dropLine s).seq.push [.instr i] = s.seq := by
    simp only [Sequencer.push, dropLine, List.singleton_append, hp, List.tail_cons]
    rw [← hp]
  have hreach := runs_instr h (dropLine s).seq hb
  rw [hq, ← hseq] at hreach
  exact invariant_engineReaches hi hreach

/-- R132: a start leaves a busy engine alone and gives an idle one its operation to run. -/
theorem invariant_startEvent {s : State} (opc : BitVec 2) (a b : CardId) (hi : invariant s = true) :
    invariant (startEvent opc a b s) = true := by
  unfold startEvent
  split
  · exact hi
  · next hb =>
    have hs : s.bus.sel = false := by
      simp_all [invariant, busyInvariant]
    have huid := checksumOk_of_invariant hi
    have hopr : hostOpr opc ≠ .idle := by revert opc; decide
    have hdepth : linesDepth [.instr (hostInstr opc)] ≤ 3 := by revert opc; decide
    exact (invariant_released
      { s with
        opc := opc, ida := a, idb := b
        seq := { busy := true, opr := hostOpr opc, ph := [.instr (hostInstr opc)], ret := [] } } rfl hs).2
      ⟨rfl, rfl, hopr, rfl, hdepth, rfl, huid⟩

theorem invariant_step {s t : State} (hi : invariant s = true) (h : step s = .next t) : invariant t = true := by
  unfold step at h
  split at h
  · unfold stepMove at h
    split at h
    · next opc a b ms _ =>
      obtain rfl := Host.Outcome.next.inj h
      exact invariant_startEvent (s := { s with moves := ms }) opc a b hi
    · obtain rfl := Host.Outcome.next.inj h
      exact invariant_idle rfl rfl checksumOk_zero
    · next ms _ => exact invariant_engineMove (s := { s with moves := ms }) hi h
    · split at h
      · next i hf =>
        unfold State.fetch at hf
        unfold State.afterFetch at h
        split at hf
        · next hb =>
          rw [if_pos hb] at h
          split at hf
          · next j ls hp =>
            obtain rfl := Option.some.inj hf
            exact invariant_execLine hb hp hi h
          · cases hf
        · next hb =>
          rw [if_neg hb] at h
          obtain rfl := Option.some.inj hf
          obtain rfl := Host.Outcome.next.inj h
          exact hi
      · exact invariant_engineMove hi h
  · cases h

/-! ## The obligations -/

/-- Settles O53: each kind of move keeps the invariant. -/
theorem stepsKeepTheInvariant : Obligations.StepsKeepTheInvariant := fun _ _ => invariant_step

/-- Settles O54: reset leaves an idle sequencer, select released and a zero identifier. -/
theorem invariantHoldsAtReset : Obligations.InvariantHoldsAtReset :=
  have h : ∀ c, invariant (State.resetWith c) = true := fun _ => invariant_idle rfl rfl checksumOk_zero
  ⟨h Cfg.default, h⟩

end Sys2Proof.Machine

/-! PROOFS. The host port (R132), reset values (R13, R40), and the end of CHECKCARD (R135). -/

namespace Sys2Proof.Machine

/-! ## Steps with one due move or none -/

/-- With no move due, a busy engine runs the instruction of its next line whole (log 4). -/
theorem step_of_instrLine {s : State} {i : Instr} {ls : List Line} (hw : s.cfg.wf = true) (hm : s.moves = [])
    (hb : s.seq.busy = true) (hp : s.seq.ph = .instr i :: ls) :
    step s = exec i { s with seq := { s.seq with ph := ls } } := by
  have hdrop : dropLine s = { s with seq := { s.seq with ph := ls } } := by rw [dropLine, hp, List.tail_cons]
  simp only [step, hw, if_true, stepMove, hm, State.fetch, State.afterFetch, hb, hp, hdrop]

/-- R162: with no move due, an idle engine runs IDLE. -/
theorem step_of_idle {s : State} (hw : s.cfg.wf = true) (hm : s.moves = []) (hb : s.seq.busy = false) :
    step s = exec .idle s := by
  simp only [step, hw, if_true, stepMove, hm, State.fetch, State.afterFetch, hb, Bool.false_eq_true, if_false]

/-- R132: with no move due and no line and no caller left, the operation ends. -/
theorem step_of_noLines {s : State} (hw : s.cfg.wf = true) (hm : s.moves = []) (hb : s.seq.busy = true)
    (hp : s.seq.ph = []) (hr : s.seq.ret = []) : step s = .next (endOperation s) := by
  simp only [step, hw, if_true, stepMove, hm, State.fetch, hb, hp, engineMove, hr]

/-- R132: a due start reaches the engine. -/
theorem step_of_start {s : State} {opc : BitVec 2} {a b : CardId} {ms : List Move} (hw : s.cfg.wf = true)
    (hm : s.moves = .start opc a b :: ms) : step s = .next (startEvent opc a b { s with moves := ms }) := by
  simp only [step, hw, if_true, stepMove, hm]

/-- R77: the operation and the instruction of each host code. -/
theorem hostCodes : ∀ opc : BitVec 2,
    (opc = 0 → hostOpr opc = .init ∧ hostInstr opc = .init) ∧
    (opc = 1 → hostOpr opc = .version ∧ hostInstr opc = .version) ∧
    (opc = 2 → hostOpr opc = .checkcard ∧ hostInstr opc = .checkcard) ∧
    (opc = 3 → hostOpr opc = .compareids ∧ hostInstr opc = .compareids) := by decide

/-! ## The steps of CHECKCARD (R135) -/

/-- What a guarded step of CHECKCARD leaves after a step that left `s`: its own run if that was Ok, else `s` itself. -/
def State.stepOn (f : State → State) (s : State) : State := if s.st = .ok then f { s with ckst := .ok } else s

/-- The state after REQUEST, on which CHECKCARD goes on (R135). -/
def afterRequest (s : State) : State := request s.cfg.reqMode { s with uid := CardId.zero, cardType := 0 }

theorem stepIfOk_stepOn (f : State → State) (s : State) :
    stepIfOk f { s with ckst := s.st } = { s.stepOn f with ckst := (s.stepOn f).st } := by
  rw [stepIfOk_eq, State.stepOn]
  split <;> rfl

/-- R135: REQUEST, then ANTICOLL and SELECT as long as each is Ok; CHECKCARD's own Status is that of the last step. -/
theorem activate_eq (s : State) :
    activate s =
      { ((afterRequest s).stepOn anticoll).stepOn select with
        ckst := (((afterRequest s).stepOn anticoll).stepOn select).st } := by
  rw [← stepIfOk_stepOn select, ← stepIfOk_stepOn anticoll]
  rfl

/-- After ANTICOLL or without it: a right checksum, and a zero identifier unless it was Ok (R75, R121). -/
theorem stepOn_anticoll_uid {s : State} (hu : s.uid = CardId.zero) :
    checksumOk (s.stepOn anticoll).uid = true ∧ ((s.stepOn anticoll).st ≠ .ok → (s.stepOn anticoll).uid = CardId.zero) ∧
    (s.stepOn anticoll).cardType = s.cardType := by
  unfold State.stepOn
  split
  · obtain ⟨huid, htype, _, _, hsum⟩ := anticoll_keeps { s with ckst := .ok }
    have hzero : checksumOk s.uid = true := by rw [hu]; exact checksumOk_zero
    exact ⟨hsum hzero, fun hst => (huid hst).trans hu, htype⟩
  · rw [hu]
    exact ⟨checksumOk_zero, fun _ => rfl, rfl⟩

/-- After SELECT or without it: the identifier stays, and TYPE stays unless it was Ok (R124). -/
theorem stepOn_select_keeps (s : State) :
    (s.stepOn select).uid = s.uid ∧ ((s.stepOn select).st ≠ .ok → (s.stepOn select).cardType = s.cardType) := by
  unfold State.stepOn
  split
  · obtain ⟨huid, _, htype, _⟩ := select_keeps { s with ckst := .ok }
    exact ⟨huid, htype⟩
  · exact ⟨rfl, fun _ => rfl⟩

theorem stepOn_of_not_ok (f : State → State) {s : State} (h : s.st ≠ .ok) : s.stepOn f = s := if_neg h

/-- R135, R154: HALT touches nothing of CHECKCARD's result, and STATUS takes the last step's Status. -/
theorem checkcard_result {s t : State} (h : exec .checkcard s = .next t) :
    t.status = (((afterRequest s).stepOn anticoll).stepOn select).st ∧
    t.uid = (((afterRequest s).stepOn anticoll).stepOn select).uid ∧
    t.cardType = (((afterRequest s).stepOn anticoll).stepOn select).cardType := by
  obtain rfl := Host.Outcome.next.inj h
  obtain ⟨huid, htype, hckst⟩ := halt_keeps (activate s)
  rw [activate_eq] at huid htype hckst ⊢
  exact ⟨hckst, huid, htype⟩

/-! ## The obligations -/

/-- Settles O30: HALT keeps what SELECT leaves, SELECT keeps UID, and ANTICOLL writes UID only with a right checksum. -/
theorem checkcardLeavesACheckedIdentifier : Obligations.CheckcardLeavesACheckedIdentifier := by
  intro s
  obtain ⟨hstatus, huid, htype⟩ := checkcard_result (s := s) rfl
  obtain ⟨hruid, hrtype, _⟩ := request_keeps s.cfg.reqMode { s with uid := CardId.zero, cardType := 0 }
  change (afterRequest s).uid = CardId.zero at hruid
  change (afterRequest s).cardType = 0 at hrtype
  refine ⟨afterRequest s, (afterRequest s).stepOn anticoll, _, rfl, ?_, rfl, ?_⟩
  · unfold State.stepOn
    split <;> rfl
  generalize afterRequest s = r at *
  obtain ⟨hsum, hauid, hatype⟩ := stepOn_anticoll_uid hruid
  have hra : r.st ≠ .ok → r.stepOn anticoll = r := stepOn_of_not_ok anticoll
  generalize r.stepOn anticoll = a at *
  obtain ⟨hbuid, hbtype⟩ := stepOn_select_keeps a
  have hab : a.st ≠ .ok → a.stepOn select = a := stepOn_of_not_ok select
  generalize a.stepOn select = b at *
  rw [hstatus, huid, htype, hbuid]
  have htypeZero : a.cardType = 0 := hatype.trans hrtype
  refine ⟨eq_of_beq hsum, fun hb => (hbtype hb).trans htypeZero, fun hr => ?_, fun _ ha => ?_, fun _ _ => rfl⟩
  · obtain rfl := hra hr
    obtain rfl := hab hr
    exact ⟨rfl, hruid, hrtype⟩
  · obtain rfl := hab ha
    exact ⟨rfl, hauid ha, htypeZero⟩

/-- Settles O41: an idle engine takes the start (`step_of_start`). -/
theorem startIsAcceptedWhenIdle : Obligations.StartIsAcceptedWhenIdle := by
  intro s opc a b ms hw hb hm
  refine ⟨hostOpr opc, hostInstr opc, ?_, hostCodes opc⟩
  rw [step_of_start hw hm, startEvent, if_neg (by simp [hb])]

/-- Settles O44: `State.resetWith` is the reset column. -/
theorem resetValuesAreThoseOfTheTable : Obligations.ResetValuesAreThoseOfTheTable := by
  intro c
  simp [State.resetWith]

/-- Settles O45: with nothing left to run the due move is the end of the operation. -/
theorem operationEndClearsBusy : Obligations.OperationEndClearsBusy := fun _ => step_of_noLines

/-- Settles O46: the fetched instruction is the next line's while BUSY = 1, and IDLE while BUSY = 0. -/
theorem stepRunsTheFetchedInstruction : Obligations.StepRunsTheFetchedInstruction :=
  fun _ _ _ hw hm => ⟨step_of_instrLine hw hm, step_of_idle hw hm⟩

end Sys2Proof.Machine

/-! PROOFS. What an instruction does to the result registers (R13, R25, R26) and to the answers of the environment (R24, R83):
each operation's lemma once, then the instructions. -/

namespace Sys2Proof.Machine

/-! ## The writers of the result registers (R13) -/

/-- The assignments that write a result register. -/
@[simp] theorem results_assign (a : Act) (s : State) :
    (a ≠ .publishStatus → a ≠ .compare → (assign a s).status = s.status) ∧
    (a ≠ .version → (assign a s).ver = s.ver) ∧
    (a ≠ .clearCard → a ≠ .anticollCheck → (assign a s).uid = s.uid) ∧
    (a ≠ .clearCard → a ≠ .selectCheck → (assign a s).cardType = s.cardType) ∧
    (a ≠ .crcLo → (assign a s).crcLo = s.crcLo) ∧ (a ≠ .crcHi → (assign a s).crcHi = s.crcHi) := by
  cases a
  case anticollCheck | selectCheck =>
    simp only [assign]
    split_ifs <;> simp
  all_goals simp [assign]

/-- Accesses write no result register. -/
@[simp] theorem results_runItems (l : List Item) (s : State) :
    (runItems l s).status = s.status ∧ (runItems l s).ver = s.ver ∧ (runItems l s).uid = s.uid ∧
    (runItems l s).cardType = s.cardType ∧ (runItems l s).crcLo = s.crcLo ∧ (runItems l s).crcHi = s.crcHi := by
  have h := eraseLoops_runItems l s
  simp only [eraseLoops, State.mk.injEq] at h
  simp [h]

/-- R107: TOCARD writes no result register. -/
@[simp] theorem results_tocard (cmd : ChipCmd) (s : State) :
    (tocard cmd s).status = s.status ∧ (tocard cmd s).ver = s.ver ∧ (tocard cmd s).uid = s.uid ∧
    (tocard cmd s).cardType = s.cardType ∧ (tocard cmd s).crcLo = s.crcLo ∧ (tocard cmd s).crcHi = s.crcHi := by
  have h := eraseTocard_tocard cmd s
  simp only [eraseTocard, State.mk.injEq] at h
  simp [h]

/-- R115: of the result registers CALCCRC writes CRC alone. -/
@[simp] theorem results_calccrc (s : State) :
    (calccrc s).status = s.status ∧ (calccrc s).ver = s.ver ∧ (calccrc s).uid = s.uid ∧
    (calccrc s).cardType = s.cardType := by
  have h := eraseCrc_calccrc s
  simp only [eraseCrc, State.mk.injEq] at h
  simp [h]

@[simp] theorem results_sendRequestFrame (m : Byte) (s : State) :
    (sendRequestFrame m s).status = s.status ∧ (sendRequestFrame m s).ver = s.ver ∧
    (sendRequestFrame m s).uid = s.uid ∧ (sendRequestFrame m s).cardType = s.cardType ∧
    (sendRequestFrame m s).crcLo = s.crcLo ∧ (sendRequestFrame m s).crcHi = s.crcHi := by
  simp [sendRequestFrame, runItem]

@[simp] theorem results_sendAnticollFrame (s : State) :
    (sendAnticollFrame s).status = s.status ∧ (sendAnticollFrame s).ver = s.ver ∧
    (sendAnticollFrame s).uid = s.uid ∧ (sendAnticollFrame s).cardType = s.cardType ∧
    (sendAnticollFrame s).crcLo = s.crcLo ∧ (sendAnticollFrame s).crcHi = s.crcHi := by
  simp [sendAnticollFrame, runItem]

/-- R118: REQUEST writes no result register. -/
@[simp] theorem results_request (m : Byte) (s : State) :
    (request m s).status = s.status ∧ (request m s).ver = s.ver ∧ (request m s).uid = s.uid ∧
    (request m s).cardType = s.cardType ∧ (request m s).crcLo = s.crcLo ∧ (request m s).crcHi = s.crcHi := by
  simp [request]

/-- R121: of the result registers ANTICOLL writes UID alone. -/
@[simp] theorem results_anticoll (s : State) :
    (anticoll s).status = s.status ∧ (anticoll s).ver = s.ver ∧ (anticoll s).cardType = s.cardType ∧
    (anticoll s).crcLo = s.crcLo ∧ (anticoll s).crcHi = s.crcHi := by
  simp [anticoll]

/-- R124: of the result registers SELECT writes TYPE and CRC alone. -/
@[simp] theorem results_select (s : State) :
    (select s).status = s.status ∧ (select s).ver = s.ver ∧ (select s).uid = s.uid := by
  unfold select
  dsimp only
  split <;> simp [selectTransceive]

/-- R127: of the result registers HALT writes CRC alone. -/
@[simp] theorem results_halt (s : State) :
    (halt s).status = s.status ∧ (halt s).ver = s.ver ∧ (halt s).uid = s.uid ∧ (halt s).cardType = s.cardType := by
  simp [halt]

/-- CHECKCARD is no writer of VER (R135). -/
theorem ver_activate (s : State) : (activate s).ver = s.ver := by
  have hguard : ∀ f : State → State, (∀ u, (f u).ver = u.ver) → ∀ u, (stepIfOk f u).ver = u.ver := by
    intro f hf u
    unfold stepIfOk
    split <;> simp [hf]
  simp [activate, hguard]

/-! ## The answers an instruction uses (R24, R83) -/

/-- Some accesses and assignments lead from `s` to `t`; none of them clears TERR. -/
def Makes (s t : State) : Prop := ∃ l, s.bus.Ran t.bus l

theorem makes_of_bus_eq {s t : State} (h : t.bus = s.bus) : Makes s t := ⟨[], by rw [h]; exact .nil _⟩

theorem Makes.trans {s t u : State} (h : Makes s t) (h' : Makes t u) : Makes s u := by
  obtain ⟨_, hr⟩ := h
  obtain ⟨_, hr'⟩ := h'
  exact ⟨_, hr.append hr'⟩

theorem makes_assign (a : Act) (s : State) (ha : a ≠ .clearTerr) : Makes s (assign a s) :=
  makes_of_bus_eq (bus_assign a s ha)

theorem makes_readReg (a : Addr) (s : State) : Makes s (readReg a s) := ⟨_, readReg_ran a s⟩

theorem makes_issueCommand (k : ChipCmd) (s : State) : Makes s (issueCommand k s) := ⟨_, issueCommand_ran k s⟩

theorem makes_runItem (it : Item) (s : State) : Makes s (runItem it s) := by
  obtain ⟨l, _, hr⟩ := runItem_ran it s
  exact ⟨l, hr⟩

theorem makes_runItems (l : List Item) (s : State) : Makes s (runItems l s) := by
  obtain ⟨_, _, hr⟩ := runItems_ran l s
  exact ⟨_, hr⟩

/-- TOCARD, stage by stage (R92). -/
theorem makes_tocard (cmd : ChipCmd) (s : State) : Makes s (tocard cmd s) := by
  obtain ⟨⟨_, hprelude⟩, _⟩ := tocardPrelude_ran cmd s
  obtain ⟨_, hissue⟩ := tocardIssue_ran cmd (tocardPrelude cmd s)
  obtain ⟨_, hpoll, _⟩ := poll_ran .irq (tocardIssue cmd (tocardPrelude cmd s))
  obtain ⟨_, hstop⟩ := tocardStop_ran (poll .irq (tocardIssue cmd (tocardPrelude cmd s)))
  have hlatched : Makes s _ := ⟨_, ((hprelude.append hissue).append hpoll).append hstop⟩
  refine hlatched.trans ?_
  obtain ⟨_, _, _, _, _, _, _, hdrain, hnone⟩ :=
    tocardDecide_ran cmd (tocardStop (poll .irq (tocardIssue cmd (tocardPrelude cmd s))))
  change _ → ∃ n c, Bus.Ran _ (tocard cmd s).bus _ ∧ _ at hdrain
  change _ → (tocard cmd s).bus = _ ∧ _ at hnone
  by_cases hok : (tocard cmd s).st = .ok ∧ cmd = .transceive
  · obtain ⟨_, _, hran, _⟩ := hdrain hok
    exact ⟨_, hran⟩
  · obtain ⟨hbus, _⟩ := hnone hok
    exact makes_of_bus_eq hbus

/-- CALCCRC, stage by stage (R110). -/
theorem makes_calccrc (s : State) : Makes s (calccrc s) := by
  obtain ⟨_, hissue⟩ := calccrcIssue_ran s
  obtain ⟨_, hpoll, _⟩ := poll_ran .crc (calccrcIssue s)
  unfold calccrc
  dsimp only
  split
  · exact ⟨_, hissue.append hpoll⟩
  · exact ⟨_, (hissue.append hpoll).append (calccrcResult_ran _).1⟩

/-- A frame put in TXBUF and transceived (R67 to R71). -/
theorem makes_assign_tocard (a : Act) (s : State) (ha : a ≠ .clearTerr) :
    Makes s (tocard .transceive (assign a s)) := (makes_assign a s ha).trans (makes_tocard _ _)

/-- A frame put in TXBUF and its CRC computed (R124, R127). -/
theorem makes_assign_calccrc (a : Act) (s : State) (ha : a ≠ .clearTerr) : Makes s (calccrc (assign a s)) :=
  (makes_assign a s ha).trans (makes_calccrc _)

theorem makes_sendRequestFrame (m : Byte) (s : State) : Makes s (sendRequestFrame m s) :=
  (makes_runItem _ s).trans (makes_assign_tocard (.tx _ _) _ nofun)

theorem makes_sendAnticollFrame (s : State) : Makes s (sendAnticollFrame s) :=
  (makes_runItem _ s).trans (makes_assign_tocard (.tx _ _) _ nofun)

theorem makes_request (m : Byte) (s : State) : Makes s (request m s) :=
  (makes_sendRequestFrame m s).trans <| (makes_assign .requestLength _ nofun).trans <|
    makes_assign .requestSilent _ nofun

theorem makes_anticoll (s : State) : Makes s (anticoll s) :=
  (makes_sendAnticollFrame s).trans (makes_assign .anticollCheck _ nofun)

theorem makes_select (s : State) : Makes s (select s) := by
  have hcrc := makes_assign_calccrc .txSelect s nofun
  unfold select
  dsimp only
  split
  · exact hcrc
  · exact hcrc.trans <| (makes_assign_tocard (.txCrc 7 9) _ nofun).trans <| makes_assign .selectCheck _ nofun

theorem makes_halt (s : State) : Makes s (halt s) :=
  (makes_assign_calccrc (.tx [0x50, 0x00] 2) s nofun).trans (makes_assign_tocard (.txCrc 2 4) _ nofun)

theorem makes_stepIfOk {f : State → State} (hf : ∀ s, Makes s (f s)) (s : State) : Makes s (stepIfOk f s) := by
  unfold stepIfOk
  split
  · exact (hf s).trans (makes_assign .keepStatus _ nofun)
  · exact makes_of_bus_eq rfl

theorem makes_activate (s : State) : Makes s (activate s) :=
  (makes_assign .clearCard s nofun).trans <| (makes_request _ _).trans <| (makes_assign .keepStatus _ nofun).trans <|
    (makes_stepIfOk makes_anticoll _).trans <| makes_stepIfOk makes_select _

/-- R24, R133: every instruction is made of accesses and assignments, INIT once it cleared TERR. -/
theorem makes_of_exec {i : Instr} {s t : State} (h : exec i s = .next t) :
    Makes (if i = .init then assign .clearTerr s else s) t := by
  cases i <;> obtain rfl := Host.Outcome.next.inj h
  case wrreg a v => exact makes_runItem (.write a v) s
  case rdreg a => exact makes_readReg a s
  case cmdIdle | cmdCalccrc | cmdTransmit | cmdReceive | cmdTransceive | cmdMfauthent | cmdSoftreset =>
    exact makes_issueCommand _ s
  case frameReqa | frameReqall => exact makes_sendRequestFrame _ s
  case frameAnticoll => exact makes_sendAnticollFrame s
  case frameSelect | frameHalt => exact makes_assign_tocard (.tx _ _) s nofun
  case init => exact makes_runItems s.cfg.initProgram _
  case version => exact (makes_readReg _ s).trans (makes_assign .version _ nofun)
  case checkcard =>
    exact (makes_activate s).trans <| (makes_halt _).trans <| makes_assign .publishStatus _ nofun
  case compareids => exact makes_assign .compare s nofun
  case request m => exact makes_request m s
  case anticoll => exact makes_anticoll s
  case select => exact makes_select s
  case halt => exact makes_halt s
  case tocard cmd => exact makes_tocard cmd s
  case calccrc => exact makes_calccrc s
  case setbm a m => exact makes_runItem (.setBits a m) s
  case clrbm a m => exact makes_runItem (.clearBits a m) s
  case idle => exact makes_of_bus_eq rfl

/-! ## The obligations -/

/-- Settles O37: the result registers each operation writes (`results_tocard` to `results_halt`), instruction by
instruction. -/
theorem resultRegistersHaveTheirWriters : Obligations.ResultRegistersHaveTheirWriters := by
  intro i s t h
  cases i <;> obtain rfl := Host.Outcome.next.inj h
  case setbm | clrbm | cmdIdle | cmdCalccrc | cmdTransmit | cmdReceive | cmdTransceive | cmdMfauthent | cmdSoftreset =>
    exact ⟨fun _ _ => rfl, fun _ => rfl, fun _ _ => rfl, fun _ _ => rfl, fun _ _ _ _ => ⟨rfl, rfl⟩⟩
  case checkcard => simp [ver_activate]
  all_goals simp

/-- Settles O39: the answers used are those of the accesses made (`makes_of_exec`). -/
theorem terrIsStickyExceptForInit : Obligations.TerrIsStickyExceptForInit := by
  intro i s t h
  obtain ⟨l, hran⟩ := makes_of_exec h
  refine ⟨exchangesOf l, ?_⟩
  by_cases hi : i = .init
  · rw [if_pos hi] at hran
    refine ⟨hran.xcount, hran.answers, hran.terr.trans ?_⟩
    rw [hi]
    rfl
  · rw [if_neg hi] at hran
    refine ⟨hran.xcount, hran.answers, hran.terr.trans ?_⟩
    rw [bne_iff_ne.2 hi, Bool.true_and]

end Sys2Proof.Machine

/-! PROOFS. No instruction and no safe state stops the engine (R43, R83, R144), and what an instruction adds to the event
history (R58, R86). -/

namespace Sys2Proof.Machine

/-! ## The moves that answer a next state -/

/-- R80 (f), R144: every instruction has a meaning, and no meaning stops. -/
theorem exists_next_exec (i : Instr) (s : State) : ∃ t, exec i s = .next t := by
  cases i <;> exact ⟨_, rfl⟩

/-- R83: the one line that can stop the engine is an exchange with select released. -/
theorem exists_next_runLine {l : Line} {s : State} (hx : ∀ b k, l = .xchg b k → s.bus.sel = true) :
    ∃ t, runLine l s = .next t := by
  cases l
  case xchg b k => exact ⟨_, if_pos (hx b k rfl)⟩
  case loadLoop | pollLoop | drainIfClean | drainLoop | callIfOk | returnIf =>
    simp only [runLine]
    split <;> exact ⟨_, rfl⟩
  all_goals exact ⟨_, rfl⟩

/-- R28: an exchange is due inside a transaction only. -/
theorem sel_of_xchgLine {s : State} {b : Byte} {k : Bool} {ls : List Line} (hp : s.seq.ph = .xchg b k :: ls)
    (hi : invariant s = true) : s.bus.sel = true := by
  cases hsel : s.bus.sel <;> simp_all [invariant, selInvariant, released]

theorem exists_next_engineMove {s : State} (hi : invariant s = true) : ∃ t, engineMove s = .next t := by
  unfold engineMove
  split
  · split
    · next l ls hp =>
      refine exists_next_runLine ?_
      rintro b k rfl
      exact (sel_of_xchgLine hp hi : s.bus.sel = true)
    · split <;> exact ⟨_, rfl⟩
  · exact ⟨_, rfl⟩

/-- R43: a host event is always taken, and an engine move or an instruction run whole has a next state. -/
theorem exists_next_stepMove {s : State} (hi : invariant s = true) : ∃ t, stepMove s = .next t := by
  unfold stepMove
  split
  · exact ⟨_, rfl⟩
  · exact ⟨_, rfl⟩
  · next ms _ => exact exists_next_engineMove (s := { s with moves := ms }) hi
  · split
    · exact exists_next_exec _ _
    · exact exists_next_engineMove hi

/-! ## The obligations -/

/-- Settles O35: instruction by instruction. -/
theorem everyInstructionCompletes : Obligations.EveryInstructionCompletes := exists_next_exec

/-- Settles O55: an accepted configuration makes the step its due move, and the invariant holds select at every exchange. -/
theorem safeStatesNeverStop : Obligations.SafeStatesNeverStop := by
  intro s hw hi
  rw [step, if_pos hw]
  exact exists_next_stepMove hi

/-- Settles O38: the accesses an instruction makes (`makes_of_exec`), INIT's first assignment adding none. -/
theorem instructionsAddWholeTransactions : Obligations.InstructionsAddWholeTransactions := by
  intro i s t h
  obtain ⟨l, hran⟩ := makes_of_exec h
  obtain ⟨es, htrace, hshows⟩ := hran.trace
  have hsel := hran.sel
  by_cases hi : i = .init
  · rw [if_pos hi] at htrace hsel
    exact ⟨⟨l, es, htrace, hshows⟩, hsel⟩
  · rw [if_neg hi] at htrace hsel
    exact ⟨⟨l, es, htrace, hshows⟩, hsel⟩

end Sys2Proof.Machine

/-! PROOFS. The encodings (R59 to R80): each class's decoder against `encode`, in both directions, and what each
rejects. -/

namespace Sys2Proof.Machine

/-! ## The address byte of class W (R60) -/

theorem wrAddrByte_eq_append (a : Addr) : wrAddrByte a = 0#1 ++ a ++ 0#1 := by
  revert a; decide

theorem rdAddrByte_eq_append (a : Addr) : rdAddrByte a = 1#1 ++ a ++ 0#1 := by
  revert a; decide

/-- R61: with bits 0 and 7 clear the word is a write, whatever its second byte. -/
theorem decodeWire_write {b : Byte} (h0 : b.getLsbD 0 = false) (h7 : b.getLsbD 7 = false) (d : Byte)
    (rest : List Byte) : decodeWire (b :: d :: rest) = .ok (.wrreg (addrOfByte b) d) rest := by
  simp only [decodeWire, h0, h7, Bool.false_eq_true, if_false]

/-- R62: with bit 0 clear and bit 7 set the word is a read, if its second byte is the dummy. -/
theorem decodeWire_read {b : Byte} (h0 : b.getLsbD 0 = false) (h7 : b.getLsbD 7 = true) (d : Byte)
    (rest : List Byte) :
    decodeWire (b :: d :: rest) = if d = 0 then .ok (.rdreg (addrOfByte b)) rest else .reject .dummyNotZero := by
  simp only [decodeWire, h0, h7, Bool.false_eq_true, if_false, if_true]

/-- What `decodeWire` looks at in the address byte of a write. -/
theorem fields_wrAddrByte (a : Addr) :
    (wrAddrByte a).getLsbD 0 = false ∧ (wrAddrByte a).getLsbD 7 = false ∧ addrOfByte (wrAddrByte a) = a := by
  revert a; decide

/-- What `decodeWire` looks at in the address byte of a read. -/
theorem fields_rdAddrByte (a : Addr) :
    (rdAddrByte a).getLsbD 0 = false ∧ (rdAddrByte a).getLsbD 7 = true ∧ addrOfByte (rdAddrByte a) = a := by
  revert a; decide

/-- R60: a byte with bit 0 clear is the address byte of its own address, for the access bit 7 names. -/
theorem addrByte_addrOfByte (b : Byte) (h : b.getLsbD 0 = false) :
    (if b.getLsbD 7 then rdAddrByte (addrOfByte b) else wrAddrByte (addrOfByte b)) = b := by
  revert b; decide

/-! ## The command byte of class K (R65) -/

theorem mem_allCmds (k : ChipCmd) : k ∈ allCmds := by
  cases k <;> decide

theorem findCmd_eq_find (c : Cfg) (b : Byte) (ks : List ChipCmd) :
    findCmd c b ks = ks.find? fun k => decide (cmdCode c k = b) := by
  induction ks with
  | nil => rfl
  | cons k ks ih =>
    rw [findCmd, List.find?_cons]
    split <;> simp_all

theorem cmdCode_of_findCmd {c : Cfg} {b : Byte} {k : ChipCmd} (h : findCmd c b allCmds = some k) : cmdCode c k = b := by
  rw [findCmd_eq_find] at h
  simpa using List.find?_some h

theorem findCmd_eq_none_iff (c : Cfg) (b : Byte) : findCmd c b allCmds = none ↔ ∀ k, cmdCode c k ≠ b := by
  simp [findCmd_eq_find, mem_allCmds]

/-- Different codes tell the commands apart. -/
theorem cmdCode_injective {c : Cfg} (hc : c.commandsDistinct = true) : Function.Injective (cmdCode c) :=
  fun k l h => List.inj_on_of_nodup_map (of_decide_eq_true hc) (mem_allCmds k) (mem_allCmds l) h

theorem findCmd_cmdCode {c : Cfg} (hc : c.commandsDistinct = true) (k : ChipCmd) :
    findCmd c (cmdCode c k) allCmds = some k := by
  cases h : findCmd c (cmdCode c k) allCmds with
  | none => exact absurd rfl ((findCmd_eq_none_iff c _).1 h k)
  | some l => rw [cmdCode_injective hc (cmdCode_of_findCmd h)]

theorem encode_cmdInstr (c : Cfg) (k : ChipCmd) : encode c (cmdInstr k) = (.chipCmd, [cmdCode c k]) := by
  cases k <;> rfl

/-! ## The word of an instruction decodes to it (R59 to R79) -/

/-- The decoder of an instruction's class reads its word back, whatever follows. -/
def ReadsBack (c : Cfg) (i : Instr) : Prop :=
  ∀ rest : List Byte, decode c (encode c i).1 ((encode c i).2 ++ rest) = .ok i rest

theorem readsBack_wrreg (c : Cfg) (a : Addr) (d : Byte) : ReadsBack c (.wrreg a d) := by
  intro rest
  obtain ⟨h0, h7, haddr⟩ := fields_wrAddrByte a
  have h := decodeWire_write h0 h7 d rest
  rwa [haddr] at h

theorem readsBack_rdreg (c : Cfg) (a : Addr) : ReadsBack c (.rdreg a) := by
  intro rest
  obtain ⟨h0, h7, haddr⟩ := fields_rdAddrByte a
  have h := decodeWire_read h0 h7 0 rest
  rwa [haddr, if_pos rfl] at h

theorem readsBack_cmdInstr {c : Cfg} (hc : c.commandsDistinct = true) (k : ChipCmd) : ReadsBack c (cmdInstr k) := by
  intro rest
  rw [encode_cmdInstr]
  simp only [decode, List.singleton_append, decodeChipCmd, findCmd_cmdCode hc]

theorem readsBack_tocard (c : Cfg) (k : ChipCmd) : ReadsBack c (.tocard k) := by
  intro rest
  cases k <;> rfl

/-- R91: the operand bytes of SETBM and CLRBM are the six-bit address and the mask. -/
theorem decodeMaskOperands_addr (f : Addr → Byte → Instr) (a : Addr) (m : Byte) (rest : List Byte) :
    decodeMaskOperands f (a.setWidth 8 :: m :: rest) = .ok (f a m) rest := by
  have hlt : (a.setWidth 8).toNat < 64 := by
    rw [BitVec.toNat_setWidth_of_le (by decide)]
    exact a.isLt
  have hwidth : (a.setWidth 8).setWidth 6 = a := by simp
  rw [decodeMaskOperands, if_pos hlt, hwidth]

/-- R59 to R79: only the address bytes, the command bytes and the operand bytes of class S need an argument; the other
words are literal bytes with their operands whole. -/
theorem readsBack {c : Cfg} (hc : c.commandsDistinct = true) (i : Instr) : ReadsBack c i := by
  cases i
  case wrreg a d => exact readsBack_wrreg c a d
  case rdreg a => exact readsBack_rdreg c a
  case cmdIdle => exact readsBack_cmdInstr hc .idle
  case cmdCalccrc => exact readsBack_cmdInstr hc .calcCrc
  case cmdTransmit => exact readsBack_cmdInstr hc .transmit
  case cmdReceive => exact readsBack_cmdInstr hc .receive
  case cmdTransceive => exact readsBack_cmdInstr hc .transceive
  case cmdMfauthent => exact readsBack_cmdInstr hc .mfAuthent
  case cmdSoftreset => exact readsBack_cmdInstr hc .softReset
  case tocard k => exact readsBack_tocard c k
  case setbm a m => exact decodeMaskOperands_addr .setbm a m
  case clrbm a m => exact decodeMaskOperands_addr .clrbm a m
  all_goals exact fun _ => rfl

/-! ## An accepted word is the word of its instruction (R60 to R71, R77) -/

/-- `bs` is the word of `i`, in class `k`, followed by `rest`. -/
def IsWord (c : Cfg) (k : EncClass) (i : Instr) (rest bs : List Byte) : Prop :=
  (encode c i).1 = k ∧ (encode c i).2 ++ rest = bs

section
variable {c : Cfg} {bs rest : List Byte} {i : Instr}

theorem isWord_of_decodeWire (h : decodeWire bs = .ok i rest) : IsWord c .wire i rest bs := by
  unfold decodeWire at h
  split at h
  · next b d tail =>
    split_ifs at h with h0 h7 hd <;> cases h
    · have hb := addrByte_addrOfByte b (by simpa using h0)
      rw [if_pos h7] at hb
      exact ⟨rfl, by rw [hd, encode, hb]; rfl⟩
    · have hb := addrByte_addrOfByte b (by simpa using h0)
      rw [if_neg h7] at hb
      exact ⟨rfl, by rw [encode, hb]; rfl⟩
  · cases h

theorem isWord_of_decodeChipCmd (h : decodeChipCmd c bs = .ok i rest) : IsWord c .chipCmd i rest bs := by
  unfold decodeChipCmd at h
  split at h
  · split at h
    · next k hk =>
      cases h
      rw [IsWord, encode_cmdInstr, cmdCode_of_findCmd hk]
      exact ⟨rfl, rfl⟩
    · cases h
  · cases h

theorem isWord_of_decodeSelectFrame (h : decodeSelectFrame bs = .ok i rest) : IsWord c .frame i rest (0x93 :: bs) := by
  unfold decodeSelectFrame at h
  split at h
  · cases h
  · split_ifs at h with h20 h70
    · cases h
      exact ⟨rfl, by rw [h20]; rfl⟩
    · split at h <;> cases h
      exact ⟨rfl, by rw [h70]; rfl⟩

theorem isWord_of_decodeHaltFrame (h : decodeHaltFrame bs = .ok i rest) : IsWord c .frame i rest (0x50 :: bs) := by
  unfold decodeHaltFrame at h
  split at h
  · cases h
  · split_ifs at h with h0
    split at h <;> cases h
    exact ⟨rfl, by rw [h0]; rfl⟩

theorem isWord_of_decodeFrame (h : decodeFrame bs = .ok i rest) : IsWord c .frame i rest bs := by
  unfold decodeFrame at h
  split at h
  · cases h
  · split_ifs at h with h26 h52 h93 h50
    · cases h
      exact ⟨rfl, by rw [h26]; rfl⟩
    · cases h
      exact ⟨rfl, by rw [h52]; rfl⟩
    · rw [h93]
      exact isWord_of_decodeSelectFrame h
    · rw [h50]
      exact isWord_of_decodeHaltFrame h

/-- R77: the byte of a host operation is its code. -/
theorem encode_hostInstr (c : Cfg) (opc : BitVec 2) : encode c (hostInstr opc) = (.host, [opc.setWidth 8]) := by
  obtain rfl | rfl | rfl | rfl : opc = 0 ∨ opc = 1 ∨ opc = 2 ∨ opc = 3 := by revert opc; decide
  all_goals rfl

theorem isWord_of_decodeHost (h : decodeHost bs = .ok i rest) : IsWord c .host i rest bs := by
  unfold decodeHost at h
  split at h
  · next b tail =>
    split_ifs at h with hlt
    cases h
    have hb : (b.setWidth 2).setWidth 8 = b := by
      apply BitVec.eq_of_toNat_eq
      simp
      omega
    rw [IsWord, encode_hostInstr, hb]
    exact ⟨rfl, rfl⟩
  · cases h

end

/-! ## Words without a meaning (R62, R80) -/

theorem decodeHost_of_le {b : Byte} (h : 4 ≤ b.toNat) (rest : List Byte) :
    decodeHost (b :: rest) = .reject .hostCodeTooWide := if_neg (by omega)

/-- R80 (e): no code from 13 up is one of the thirteen. -/
theorem decodeSeq_of_le {b : Byte} (h : 13 ≤ b.toNat) (rest : List Byte) :
    decodeSeq (b :: rest) = .reject .unreachableCode := by
  have hne : ∀ n : Byte, n.toNat < 13 → b ≠ n := by
    rintro n hn rfl
    omega
  simp [decodeSeq, hne]

theorem decodeCmdOperand_of_le {n : Byte} (h : 7 ≤ n.toNat) (rest : List Byte) :
    decodeCmdOperand (n :: rest) = .reject .operandOutOfRange := by
  have hnone : allCmds[n.toNat]? = none := List.getElem?_eq_none h
  rw [decodeCmdOperand, hnone]

theorem decodeMaskOperands_of_le (f : Addr → Byte → Instr) {a : Byte} (h : 64 ≤ a.toNat) (m : Byte)
    (rest : List Byte) :
    decodeMaskOperands f (a :: m :: rest) = .reject .operandOutOfRange := if_neg (by omega)

/-! ## The obligations -/

/-- Settles O1: every instruction's class reads its word back (`readsBack`). -/
theorem decodeOfEncodeIsTheInstruction : Obligations.DecodeOfEncodeIsTheInstruction :=
  fun _ i rest hc => readsBack hc i rest

/-- Settles O2: class by class. -/
theorem encodeOfDecodeGivesTheBytes : Obligations.EncodeOfDecodeGivesTheBytes := by
  intro c k bs i rest hk h
  cases k with
  | wire => exact isWord_of_decodeWire h
  | chipCmd => exact isWord_of_decodeChipCmd h
  | frame => exact isWord_of_decodeFrame h
  | host => exact isWord_of_decodeHost h
  | seq => exact absurd rfl hk

/-- Settles O4: each clause takes its decoder down to the branch that rejects. -/
theorem reservedEncodingsAreRejected : Obligations.ReservedEncodingsAreRejected := by
  intro c b d m rest
  refine ⟨fun h0 => if_pos h0, fun h0 h7 hd => (decodeWire_read h0 h7 d rest).trans (if_neg hd),
    fun hk => ?_, fun h26 h52 h93 h50 => ?_, fun h20 h70 => ?_,
    fun hd => if_neg hd, fun hb => decodeHost_of_le hb rest, fun hb => decodeSeq_of_le hb rest,
    fun hd => decodeCmdOperand_of_le hd rest,
    fun hd => ⟨decodeMaskOperands_of_le .setbm hd m rest, decodeMaskOperands_of_le .clrbm hd m rest⟩⟩
  · simp only [decode, decodeChipCmd, (findCmd_eq_none_iff c b).2 hk]
  · simp only [decode, decodeFrame, h26, h52, h93, h50, if_false]
  · exact (if_neg h20).trans (if_neg h70)

/-- Settles O3: the address byte is the concatenation of its fields. -/
theorem wireWordsHaveTheStatedFields : Obligations.WireWordsHaveTheStatedFields := by
  intro c a d
  rw [← wrAddrByte_eq_append, ← rdAddrByte_eq_append]
  exact ⟨rfl, rfl, rfl, rfl⟩

/-- Settles O5: each of the seven is the word of its instruction, which reads back. -/
theorem wordsWrittenOutDecode : Obligations.WordsWrittenOutDecode := fun _ hc =>
  ⟨readsBack hc (.wrreg 0x0D 0x07) [], readsBack hc (.rdreg 0x04) [], readsBack hc .cmdTransceive [],
    readsBack hc (.frameSelect ⟨0x4D, 0xAF, 0x84, 0x59, 0x3F⟩ 0x18 0xD6) [], readsBack hc (.frameHalt 0x57 0xCD) [],
    readsBack hc .checkcard [], readsBack hc .calccrc []⟩

/-- Settles O6: command by command, code by code. -/
theorem codeTablesAreAsListed : Obligations.CodeTablesAreAsListed :=
  ⟨fun k => by cases k <;> rfl, fun k => by cases k <;> rfl, rfl, rfl⟩

end Sys2Proof.Machine

/-! PROOFS. Chip commands and card frames whole (R65 to R71), the Status of a TOCARD without a wait bit (R105), and the
placing of a table word (log 5). -/

namespace Sys2Proof.Machine

/-! ## Chip commands (R65) -/

/-- R65, R84: a command is one write transaction of its code. -/
theorem issueCommand_eq (k : ChipCmd) (s : State) :
    issueCommand k s = { s with bus := s.bus.afterWrite s.cfg.regCommand (cmdCode s.cfg k) } := by
  rw [issueCommand, writeReg, write_eq_afterWrite]

theorem exec_cmdInstr (k : ChipCmd) (s : State) :
    exec (cmdInstr k) s = .next { s with bus := s.bus.afterWrite s.cfg.regCommand (cmdCode s.cfg k) } := by
  rw [← issueCommand_eq]
  cases k <;> rfl

/-! ## Card frames (R67 to R71) -/

theorem sendRequestFrame_eq (m : Byte) (s : State) :
    sendRequestFrame m s =
      tocard .transceive
        { s with txbuf := s.txbuf.set 0 m, txlen := 1, bus := s.bus.afterWrite s.cfg.regBitFraming 0x07 } := by
  rw [sendRequestFrame, runItem_write, assign_tx_one]

theorem sendAnticollFrame_eq (s : State) :
    sendAnticollFrame s =
      tocard .transceive
        { s with
          txbuf := (s.txbuf.set 0 0x93).set 1 0x20, txlen := 2
          bus := s.bus.afterWrite s.cfg.regBitFraming 0x00 } := by
  rw [sendAnticollFrame, runItem_write, assign_tx_two]

/-- R71: the four bytes of the halt frame in TXBUF. -/
theorem assign_tx_four (a b d e : Byte) (s : State) :
    assign (.tx [a, b, d, e] 4) s =
      { s with txbuf := (((s.txbuf.set 0 a).set 1 b).set 2 d).set 3 e, txlen := 4 } := by
  simp (disch := decide) [assign, putBytes, setIfInBounds_eq_set]

/-- R70: the nine bytes of the select frame in TXBUF. -/
theorem assign_tx_select (u : CardId) (lo hi : Byte) (s : State) :
    assign (.tx (selectHead u ++ [lo, hi]) 9) s =
      { s with
        txbuf :=
          ((((((((s.txbuf.set 0 0x93).set 1 0x70).set 2 u.b0).set 3 u.b1).set 4 u.b2).set 5 u.b3).set 6 u.b4).set 7
            lo).set 8 hi
        txlen := 9 } := by
  simp (disch := decide) [assign, putBytes, setIfInBounds_eq_set, selectHead, CardId.bytes]

/-! ## The Status of TOCARD without a wait bit (R105) -/

/-- TOCARD up to its decision: what its latches hold then (R94 to R99). -/
def tocardLatched (cmd : ChipCmd) (s : State) : State :=
  tocardStop (poll .irq (tocardIssue cmd (tocardPrelude cmd s)))

theorem wait_of_eraseLoops {s t : State} (h : eraseLoops t = eraseLoops s) : t.wait = s.wait := by
  change (eraseLoops t).wait = (eraseLoops s).wait
  rw [h]

/-- R94, R95, R96: the prelude latches the wait mask, and the issue of the command keeps it. -/
theorem wait_tocardIssue (cmd : ChipCmd) (s : State) :
    (tocardIssue cmd (tocardPrelude cmd s)).wait = waitMask cmd := by
  obtain ⟨_, _, _, _, _, _, _, _, _, hprelude⟩ := tocardPrelude_ran cmd s
  exact (wait_of_eraseLoops (eraseLoops_issue cmd _)).trans hprelude

/-- R97: HIT says that the byte polled last has the timer bit or a wait bit. -/
theorem hit_tocardLatched (cmd : ChipCmd) (s : State) :
    (tocardLatched cmd s).wait = waitMask cmd ∧
    (tocardLatched cmd s).hit = terminates .irq (waitMask cmd) (tocardLatched cmd s).irqv := by
  have hissue := wait_tocardIssue cmd s
  unfold tocardLatched
  generalize tocardIssue cmd (tocardPrelude cmd s) = u at *
  have hpoll : (poll .irq u).wait = u.wait := wait_of_eraseLoops (eraseLoops_poll .irq u)
  obtain ⟨_, _, _, _, _, _, hhit, _⟩ := poll_ran .irq u
  obtain ⟨_, hstopHit, hstopIrqv, _, hstopWait, _⟩ := tocardStop_latches (poll .irq u)
  rw [hstopWait, hpoll, hstopHit, hstopIrqv, hhit, hissue]
  exact ⟨rfl, rfl⟩

theorem waitMask_eq_zero {cmd : ChipCmd} (ht : cmd ≠ .transceive) (hm : cmd ≠ .mfAuthent) : waitMask cmd = 0 := by
  cases cmd
  case transceive => exact absurd rfl ht
  case mfAuthent => exact absurd rfl hm
  all_goals rfl

/-- R105: where the wait mask is zero, a hit is the timer bit alone, so the Status priority ends before Ok. -/
theorem tocard_st_of_waitMask_zero {cmd : ChipCmd} (h : waitMask cmd = 0) (s : State) :
    (tocard cmd s).st = .error ∨ (tocard cmd s).st = .timeout := by
  obtain ⟨hwait, hhit⟩ := hit_tocardLatched cmd s
  obtain ⟨_, _, _, _, _, _, hst, _⟩ := tocardDecide_ran cmd (tocardLatched cmd s)
  rw [h] at hwait hhit
  change (tocard cmd s).st = _ at hst
  have htimer : (tocardLatched cmd s).hit = true → (tocardLatched cmd s).irqv &&& 0x01 ≠ 0 := by
    rw [hhit]
    simp [terminates, anyBit]
  rw [hst, hwait]
  split_ifs with herr hnone htimerOnly
  · exact .inl rfl
  · exact .inr rfl
  · exact .inr rfl
  all_goals exact absurd ⟨htimer (by simpa using hnone), BitVec.and_zero⟩ htimerOnly

/-! ## A placed word (log 5) -/

theorem withFetchWord_eq {s : State} {nbits w : Nat} {i : Instr} (h : decodeWordOf s.cfg nbits w = some i) :
    s.withFetchWord nbits w = s.withInstr i := by
  rw [State.withFetchWord, h]

/-- IDLE is placed as the idle engine, every other instruction as the one line of a busy one. -/
theorem step_withInstr {s : State} (hw : s.cfg.wf = true) (i : Instr) :
    step (s.withInstr i) =
      exec i { s with seq := { busy := i != .idle, opr := placedOpr i, ph := [], ret := [] }, moves := [] } := by
  by_cases hi : i = .idle
  · subst hi
    exact step_of_idle hw rfl rfl
  · exact step_of_instrLine hw rfl (bne_iff_ne.2 hi) (if_neg hi)

/-! ## The obligations -/

/-- Settles O12: the framing write and the stores in TXBUF as one state each. -/
theorem shortFramesAreTransceived : Obligations.ShortFramesAreTransceived := by
  intro s
  refine ⟨_, _, _, rfl, rfl, rfl, ?_, ?_, ?_⟩
  · rw [sendRequestFrame_eq]; rfl
  · rw [sendRequestFrame_eq]; rfl
  · rw [sendAnticollFrame_eq]; rfl

/-- Settles O13: the stores in TXBUF as one state each. -/
theorem crcFramesAreTransceived : Obligations.CrcFramesAreTransceived := by
  intro u lo hi s
  refine ⟨_, _, rfl, rfl, ?_, ?_⟩
  · rw [assign_tx_select]; rfl
  · rw [assign_tx_four]; rfl

/-- Settles O19: these commands have no wait bit. -/
theorem tocardWithoutWaitBitNeverSucceeds : Obligations.TocardWithoutWaitBitNeverSucceeds :=
  fun _ s ht hm => ⟨_, rfl, tocard_st_of_waitMask_zero (waitMask_eq_zero ht hm) s⟩

/-- Settles O11: command by command. -/
theorem chipCommandsWriteTheirCode : Obligations.ChipCommandsWriteTheirCode := fun s =>
  ⟨exec_cmdInstr .idle s, exec_cmdInstr .calcCrc s, exec_cmdInstr .transmit s, exec_cmdInstr .receive s,
    exec_cmdInstr .transceive s, exec_cmdInstr .mfAuthent s, exec_cmdInstr .softReset s⟩

/-- Settles O47: the word is the instruction placed, and the placed instruction runs. -/
theorem placedWordRunsNext : Obligations.PlacedWordRunsNext := by
  intro s nbits w i hw h
  rw [withFetchWord_eq h, step_withInstr hw]

end Sys2Proof.Machine

/-! PROOFS. Register access (R83 to R89): the four accesses in closed form, an exchange line as the step runs it,
and the transport faults, which nothing but TERR shows: every operation takes states that differ in fault flags only to
such states. -/

namespace Sys2Proof.Machine

/-! ## Single accesses (R83 to R85) -/

theorem writeReg_eq (a : Addr) (v : Byte) (s : State) : writeReg a v s = { s with bus := s.bus.afterWrite a v } := by
  rw [writeReg, write_eq_afterWrite]

theorem readReg_eq (a : Addr) (s : State) : readReg a s = { s with bus := s.bus.afterRead a } := by
  rw [readReg, read_eq_afterRead]

/-- With no move due, the step on an exchange line is that line's engine move (log 1). -/
theorem step_of_xchgLine {s : State} {b : Byte} {keep : Bool} {ls : List Line} (hw : s.cfg.wf = true)
    (hm : s.moves = []) (hb : s.seq.busy = true) (hp : s.seq.ph = .xchg b keep :: ls) :
    step s = runLine (.xchg b keep) (dropLine s) := by
  simp only [step, hw, if_true, stepMove, hm, State.fetch, engineMove, hb, hp]

/-! ## The bus without its fault flags (R43, R89) -/

/-- The bus without its fault flags, past and scripted. -/
def Bus.eraseFaults (b : Bus) : Bus := { b with terr := false, answers := b.answers.map fun a => ⟨a.byte, false⟩ }

theorem eraseFaults_eq (s : State) : eraseFaults s = { s with bus := s.bus.eraseFaults } := rfl

theorem Bus.eraseFaults_idem (b : Bus) : b.eraseFaults.eraseFaults = b.eraseFaults := by
  simp [Bus.eraseFaults]

/-- R43: the byte of an answer, scripted or free, does not depend on the fault flags. -/
theorem Bus.byte_answerAt_eraseFaults (b : Bus) (k : Nat) : (b.eraseFaults.answerAt k).byte = (b.answerAt k).byte := by
  simp only [Bus.answerAt, Bus.eraseFaults, List.getElem?_map]
  cases b.answers[k]? <;> rfl

theorem Bus.eraseFaults_afterWrite (b : Bus) (a : Addr) (v : Byte) :
    (b.eraseFaults.afterWrite a v).eraseFaults = (b.afterWrite a v).eraseFaults := by
  simp only [Bus.afterWrite, Bus.byte_answerAt_eraseFaults]
  simp [Bus.eraseFaults, Function.comp_def]

theorem Bus.eraseFaults_afterRead (b : Bus) (a : Addr) :
    (b.eraseFaults.afterRead a).eraseFaults = (b.afterRead a).eraseFaults := by
  simp only [Bus.afterRead, Bus.byte_answerAt_eraseFaults]
  simp [Bus.eraseFaults, Function.comp_def]

/-! ## States that differ in fault flags only (R89) -/

/-- The two states differ in fault flags only. -/
def FaultAlike (s s' : State) : Prop := eraseFaults s = eraseFaults s'

/-- What does not see the fault flags has one value on both states. -/
theorem FaultAlike.value_eq {α : Type} {s s' : State} (h : FaultAlike s s') {g : State → α}
    (hg : ∀ u, g (eraseFaults u) = g u) : g s = g s' := by
  rw [← hg s, h, hg s']

/-- An operation that passes fault flags on to fault flags only keeps two states alike. -/
theorem FaultAlike.map {s s' : State} (h : FaultAlike s s') {f : State → State}
    (hf : ∀ u, eraseFaults (f (eraseFaults u)) = eraseFaults (f u)) : FaultAlike (f s) (f s') :=
  h.value_eq (g := fun u => eraseFaults (f u)) hf

theorem faultAlike_ite {c c' : Prop} [Decidable c] [Decidable c'] {s s' t t' : State} (hc : c = c')
    (hs : FaultAlike s s') (ht : FaultAlike t t') : FaultAlike (if c then s else t) (if c' then s' else t') := by
  subst hc
  split_ifs
  · exact hs
  · exact ht

theorem assign_eraseFaults (a : Act) (s : State) : assign a (eraseFaults s) = eraseFaults (assign a s) := by
  cases a
  case anticollCheck | selectCheck => simp only [assign, apply_ite eraseFaults]; rfl
  all_goals rfl

theorem holds_eraseFaults (c : Cond) (s : State) : c.holds (eraseFaults s) = c.holds s := by
  cases c <;> rfl

theorem expansion_eraseFaults (m : MicroOp) (s : State) : m.expansion (eraseFaults s) = m.expansion s := by
  cases m <;> rfl

section
variable {s s' : State} (h : FaultAlike s s')
include h

theorem FaultAlike.cfg_eq : s.cfg = s'.cfg := h.value_eq fun _ => rfl

theorem FaultAlike.holds_eq (c : Cond) : (c.holds s = true) = (c.holds s' = true) := by
  rw [h.value_eq (holds_eraseFaults c)]

/-! ## Accesses (R84 to R88) -/

theorem faultAlike_assign (a : Act) : FaultAlike (assign a s) (assign a s') :=
  h.map fun u => by rw [assign_eraseFaults, eraseFaults_eq, eraseFaults_eq, Bus.eraseFaults_idem]

theorem faultAlike_writeReg {a a' : Addr} {v v' : Byte} (ha : a = a') (hv : v = v') :
    FaultAlike (writeReg a v s) (writeReg a' v' s') := by
  subst ha hv
  refine h.map fun u => ?_
  simp only [writeReg_eq, eraseFaults_eq, Bus.eraseFaults_afterWrite]

theorem faultAlike_readReg {a a' : Addr} (ha : a = a') : FaultAlike (readReg a s) (readReg a' s') := by
  subst ha
  refine h.map fun u => ?_
  simp only [readReg_eq, eraseFaults_eq, Bus.eraseFaults_afterRead]

theorem faultAlike_delayMs (ms : BitVec 16) : FaultAlike (delayMs ms s) (delayMs ms s') :=
  h.map fun u => by simp [delayMs, eraseFaults]

/-- A read and the assignment that uses its byte. -/
theorem faultAlike_assign_readReg (x : Act) {a a' : Addr} (ha : a = a') :
    FaultAlike (assign x (readReg a s)) (assign x (readReg a' s')) :=
  faultAlike_assign (faultAlike_readReg h ha) x

/-- R87, R88: TMP holds the same byte in both states, so the same byte is written. -/
theorem faultAlike_runItem {it it' : Item} (hit : it = it') : FaultAlike (runItem it s) (runItem it' s') := by
  subst hit
  cases it with
  | write a v => exact faultAlike_writeReg h rfl rfl
  | delay ms => exact faultAlike_delayMs h ms
  | setBits a m | clearBits a m =>
    have hread := faultAlike_assign_readReg h .tmp (Eq.refl a)
    have htmp := hread.value_eq (g := State.tmp) fun _ => rfl
    exact faultAlike_writeReg hread rfl (by rw [htmp])

theorem faultAlike_runMicro (m : MicroOp) : FaultAlike (runMicro m s) (runMicro m s') :=
  faultAlike_runItem h (h.value_eq (expansion_eraseFaults m))

theorem faultAlike_issueCommand (k : ChipCmd) : FaultAlike (issueCommand k s) (issueCommand k s') :=
  faultAlike_writeReg h (by rw [h.cfg_eq]) (by rw [h.cfg_eq])

end

theorem faultAlike_runItems (l : List Item) {s s' : State} (h : FaultAlike s s') :
    FaultAlike (runItems l s) (runItems l s') := by
  induction l generalizing s s' with
  | nil => exact h
  | cons it l ih => exact ih (faultAlike_runItem h rfl)

/-! ## The loops: the same bytes are read, so they run equally long (R95, R97, R103) -/

theorem faultAlike_loadFifo (n : Nat) {s s' : State} (h : FaultAlike s s') :
    FaultAlike (loadFifo n s) (loadFifo n s') := by
  induction n generalizing s s' with
  | zero => exact h
  | succ n ih =>
    have hbyte := h.value_eq (g := fun u => u.txAt u.idx.toNat) fun _ => rfl
    exact ih (faultAlike_assign (faultAlike_writeReg h (by rw [h.cfg_eq]) hbyte) .idxNext)

theorem faultAlike_pollFor (k : PollKind) (n : Nat) {s s' : State} (h : FaultAlike s s') :
    FaultAlike (pollFor k n s) (pollFor k n s') := by
  induction n generalizing s s' with
  | zero => exact h
  | succ n ih =>
    have hread : FaultAlike (pollRead k s) (pollRead k s') :=
      faultAlike_assign_readReg h (.pollTest k) (by rw [h.cfg_eq])
    have hhit := hread.value_eq (g := fun u => u.hit = true) fun _ => rfl
    exact faultAlike_ite hhit hread (ih hread)

theorem faultAlike_drainFifo (n : Nat) {s s' : State} (h : FaultAlike s s') :
    FaultAlike (drainFifo n s) (drainFifo n s') := by
  induction n generalizing s s' with
  | zero => exact h
  | succ n ih => exact ih (faultAlike_assign (faultAlike_assign_readReg h .rxPut (by rw [h.cfg_eq])) .idxNext)

/-! ## The operations (R92 to R138) -/

section
variable {s s' : State} (h : FaultAlike s s')
include h

theorem faultAlike_loadFrame : FaultAlike (loadFrame s) (loadFrame s') := by
  have hlen := h.value_eq (g := State.txlen) fun _ => rfl
  rw [loadFrame, loadFrame, hlen]
  exact faultAlike_loadFifo _ (faultAlike_assign h .idxZero)

theorem faultAlike_poll (k : PollKind) : FaultAlike (poll k s) (poll k s') := by
  rw [poll, poll, h.cfg_eq]
  exact faultAlike_pollFor k _ (faultAlike_assign h .pollInit)

theorem faultAlike_drain : FaultAlike (drain s) (drain s') := by
  have hlevel := faultAlike_assign_readReg h .lvl (congrArg Cfg.regFifoLevel h.cfg_eq)
  have hlast := faultAlike_assign_readReg hlevel .lastb (congrArg Cfg.regControl hlevel.cfg_eq)
  have hlength := faultAlike_assign (faultAlike_assign hlast .lvlFloor) .rxlen
  have hhead : FaultAlike (drainHead s) (drainHead s') := faultAlike_assign (faultAlike_assign hlength .lvlCap) .idxZero
  have hlvl := hhead.value_eq (g := State.lvl) fun _ => rfl
  simp only [drain, hlvl]
  exact faultAlike_drainFifo _ hhead

/-- Steps 1 and 2 (R94). -/
theorem faultAlike_tocardPrelude (cmd : ChipCmd) : FaultAlike (tocardPrelude cmd s) (tocardPrelude cmd s') := by
  have hcleared := faultAlike_assign (faultAlike_assign h (.masks cmd)) .clearRx
  have hidle := faultAlike_runMicro (faultAlike_runMicro hcleared .writeIrqEnable) .chipIdle
  exact faultAlike_runMicro (faultAlike_runMicro (faultAlike_runMicro hidle .clearCollFlag) .clearIrqs) .flushFifo

/-- Steps 3 and 4 (R95, R96). -/
theorem faultAlike_tocardIssue (cmd : ChipCmd) : FaultAlike (tocardIssue cmd s) (tocardIssue cmd s') :=
  have hissued := faultAlike_issueCommand (faultAlike_loadFrame h) cmd
  faultAlike_ite rfl (faultAlike_runMicro hissued .startSend) hissued

/-- Step 6 and the read of step 7 (R98, R99). -/
theorem faultAlike_tocardStop : FaultAlike (tocardStop s) (tocardStop s') :=
  have hstopped := faultAlike_runMicro h .stopSend
  faultAlike_assign_readReg hstopped .errv (congrArg Cfg.regError hstopped.cfg_eq)

/-- Steps 9 and 10 (R101, R102). -/
theorem faultAlike_tocardConclude (cmd : ChipCmd) : FaultAlike (tocardConclude cmd s) (tocardConclude cmd s') := by
  have hjudged := faultAlike_assign h .judge
  have hclean := hjudged.value_eq (g := fun u => (cmd = .transceive && !anyBit u.errv 0x1B) = true) fun _ => rfl
  exact faultAlike_assign (faultAlike_ite hclean (faultAlike_drain hjudged) hjudged) .collision

/-- Steps 7 to 10 (R99 to R102). -/
theorem faultAlike_tocardDecide (cmd : ChipCmd) : FaultAlike (tocardDecide cmd s) (tocardDecide cmd s') :=
  faultAlike_ite (h.holds_eq .errorBits) (faultAlike_assign h _) <|
    faultAlike_ite (h.holds_eq .noHit) (faultAlike_assign h _) <|
    faultAlike_ite (h.holds_eq .timerOnly) (faultAlike_assign h _) (faultAlike_tocardConclude h cmd)

theorem faultAlike_tocard (cmd : ChipCmd) : FaultAlike (tocard cmd s) (tocard cmd s') := by
  have hissued := faultAlike_tocardIssue (faultAlike_tocardPrelude h cmd) cmd
  exact faultAlike_tocardDecide (faultAlike_tocardStop (faultAlike_poll hissued .irq)) cmd

theorem faultAlike_calccrcIssue : FaultAlike (calccrcIssue s) (calccrcIssue s') := by
  have hidle := faultAlike_runMicro (faultAlike_runMicro (faultAlike_runMicro h .clearCrcIrq) .flushFifo) .chipIdle
  exact faultAlike_issueCommand (faultAlike_loadFrame hidle) .calcCrc

theorem faultAlike_calccrcResult : FaultAlike (calccrcResult s) (calccrcResult s') := by
  have hlow := faultAlike_assign_readReg h .crcLo (congrArg Cfg.regCrcResultL h.cfg_eq)
  have hhigh := faultAlike_assign_readReg hlow .crcHi (congrArg Cfg.regCrcResultH hlow.cfg_eq)
  exact faultAlike_assign hhigh (.statusIs .ok)

theorem faultAlike_calccrc : FaultAlike (calccrc s) (calccrc s') :=
  have hpolled := faultAlike_poll (faultAlike_calccrcIssue h) .crc
  faultAlike_ite (hpolled.holds_eq .noHit) (faultAlike_assign hpolled _) (faultAlike_calccrcResult hpolled)

/-- A frame put in TXBUF and transceived (R67 to R71). -/
theorem faultAlike_tocard_assign (a : Act) :
    FaultAlike (tocard .transceive (assign a s)) (tocard .transceive (assign a s')) :=
  faultAlike_tocard (faultAlike_assign h a) .transceive

theorem faultAlike_sendRequestFrame (m : Byte) : FaultAlike (sendRequestFrame m s) (sendRequestFrame m s') :=
  faultAlike_tocard_assign (faultAlike_runItem h (by rw [h.cfg_eq])) (.tx [m] 1)

theorem faultAlike_sendAnticollFrame : FaultAlike (sendAnticollFrame s) (sendAnticollFrame s') :=
  faultAlike_tocard_assign (faultAlike_runItem h (by rw [h.cfg_eq])) (.tx [0x93, 0x20] 2)

theorem faultAlike_request (m : Byte) : FaultAlike (request m s) (request m s') :=
  faultAlike_assign (faultAlike_assign (faultAlike_sendRequestFrame h m) .requestLength) .requestSilent

theorem faultAlike_anticoll : FaultAlike (anticoll s) (anticoll s') :=
  faultAlike_assign (faultAlike_sendAnticollFrame h) .anticollCheck

theorem faultAlike_select : FaultAlike (select s) (select s') := by
  have hcrc := faultAlike_calccrc (faultAlike_assign h .txSelect)
  exact faultAlike_ite (hcrc.holds_eq .notOk) hcrc
    (faultAlike_assign (faultAlike_tocard_assign hcrc (.txCrc 7 9)) .selectCheck)

theorem faultAlike_halt : FaultAlike (halt s) (halt s') :=
  faultAlike_tocard_assign (faultAlike_calccrc (faultAlike_assign h (.tx [0x50, 0x00] 2))) (.txCrc 2 4)

theorem faultAlike_stepIfOk {f : State → State} (hf : ∀ {u u'}, FaultAlike u u' → FaultAlike (f u) (f u')) :
    FaultAlike (stepIfOk f s) (stepIfOk f s') :=
  faultAlike_ite (h.value_eq (g := fun u => u.ckst = .ok) fun _ => rfl) (faultAlike_assign (hf h) .keepStatus) h

theorem faultAlike_activate : FaultAlike (activate s) (activate s') := by
  have hcleared := faultAlike_assign h .clearCard
  have hrequest : FaultAlike (request s.cfg.reqMode (assign .clearCard s))
      (request s'.cfg.reqMode (assign .clearCard s')) := by
    rw [h.cfg_eq]
    exact faultAlike_request hcleared _
  have hkept := faultAlike_assign hrequest .keepStatus
  exact faultAlike_stepIfOk (faultAlike_stepIfOk hkept faultAlike_anticoll) faultAlike_select

/-- R89: run whole, an instruction takes states that differ in fault flags only to such states. -/
theorem faultAlike_exec {i : Instr} {t : State} (hexec : exec i s = .next t) :
    ∃ t', exec i s' = .next t' ∧ FaultAlike t t' := by
  cases i <;> obtain rfl := Host.Outcome.next.inj hexec <;> refine ⟨_, rfl, ?_⟩
  case wrreg a v => exact faultAlike_writeReg h rfl rfl
  case rdreg a => exact faultAlike_readReg h rfl
  case cmdIdle | cmdCalccrc | cmdTransmit | cmdReceive | cmdTransceive | cmdMfauthent | cmdSoftreset =>
    exact faultAlike_issueCommand h _
  case frameReqa | frameReqall => exact faultAlike_sendRequestFrame h _
  case frameAnticoll => exact faultAlike_sendAnticollFrame h
  case frameSelect | frameHalt => exact faultAlike_tocard_assign h (.tx _ _)
  case init =>
    rw [h.cfg_eq]
    exact faultAlike_runItems _ (faultAlike_assign h .clearTerr)
  case version => exact faultAlike_assign_readReg h .version (by rw [h.cfg_eq])
  case checkcard => exact faultAlike_assign (faultAlike_halt (faultAlike_activate h)) .publishStatus
  case compareids => exact faultAlike_assign h .compare
  case request m => exact faultAlike_request h m
  case anticoll => exact faultAlike_anticoll h
  case select => exact faultAlike_select h
  case halt => exact faultAlike_halt h
  case tocard cmd => exact faultAlike_tocard h cmd
  case calccrc => exact faultAlike_calccrc h
  case setbm a m => exact faultAlike_runItem h (Eq.refl (Item.setBits a m))
  case clrbm a m => exact faultAlike_runItem h (Eq.refl (Item.clearBits a m))
  case idle => exact h

end

/-! ## The obligations -/

/-- Settles O40: instruction by instruction (`faultAlike_exec`). -/
theorem transportFaultsAreAdvisory : Obligations.TransportFaultsAreAdvisory :=
  fun _ _ _ _ h => faultAlike_exec h

/-- Settles O7: WRREG is one write transaction. -/
theorem writeRegisterIsOneTransaction : Obligations.WriteRegisterIsOneTransaction :=
  fun a v s => congrArg Host.Outcome.next (writeReg_eq a v s)

/-- Settles O8: RDREG is one read transaction. -/
theorem readRegisterIsOneTransaction : Obligations.ReadRegisterIsOneTransaction :=
  fun a s => congrArg Host.Outcome.next (readReg_eq a s)

/-- Settles O9: the byte written is the one just read, with the mask or-ed in. -/
theorem setBitMaskReadsThenWrites : Obligations.SetBitMaskReadsThenWrites :=
  fun a m s => congrArg Host.Outcome.next (setBitMask_eq a m s)

/-- Settles O10: the byte written is the one just read, with the mask and-ed out. -/
theorem clearBitMaskReadsThenWrites : Obligations.ClearBitMaskReadsThenWrites :=
  fun a m s => congrArg Host.Outcome.next (clearBitMask_eq a m s)

/-- Settles O49: the engine move on an exchange line tests the select line, and the answer is the next one due. -/
theorem exchangeNeedsTheSelectLine : Obligations.ExchangeNeedsTheSelectLine := by
  intro s b keep rest hw hm hb hp
  rw [step_of_xchgLine hw hm hb hp]
  refine ⟨fun hsel => if_neg (ne_true_of_eq_false hsel), fun hsel => ⟨_, if_pos hsel, ?_⟩⟩
  simp only [dropLine, Bus.xchg, answer_eq_answerAt, hp, List.tail_cons, and_self]

end Sys2Proof.Machine

/-! PROOFS. TOCARD whole (R92 to R107): the accesses and latches up to its decision, then what the decision leaves. -/

namespace Sys2Proof.Machine

/-! ## Up to the decision (R94 to R99) -/

/-- The accesses of TOCARD before its decision (R94 to R99): `x`, `y` and `z` are the bytes read from the collision and the
bit-framing register, `polls` those read from the interrupt register, `e` the one read from the error register. -/
def latchAccesses (cmd : ChipCmd) (s : State) (x y z : Byte) (polls : List Byte) (e : Byte) : List Access :=
  [.write s.cfg.regComIen (enableMask cmd ||| 0x80), .write s.cfg.regCommand s.cfg.cmdIdle, .read s.cfg.regColl x,
    .write s.cfg.regColl (x &&& 0x7F), .write s.cfg.regComIrq 0x7F, .write s.cfg.regFifoLevel 0x80]
    ++ (s.txbuf.toList.take s.txlen.val).map (.write s.cfg.regFifoData)
    ++ [.write s.cfg.regCommand (cmdCode s.cfg cmd)]
    ++ (if cmd = .transceive then [.read s.cfg.regBitFraming y, .write s.cfg.regBitFraming (y ||| 0x80)] else [])
    ++ polls.map (.read s.cfg.regComIrq)
    ++ [.read s.cfg.regBitFraming z, .write s.cfg.regBitFraming (z &&& 0x7F), .read s.cfg.regError e]

/-- The accesses of the drain (R103) when the level byte read is `n` and the control byte `c`, as `t` holds the response. -/
def drainAccesses (cfg : Cfg) (t : State) (n c : Byte) : List Access :=
  .read cfg.regFifoLevel n :: .read cfg.regControl c ::
    (t.rxbuf.toList.take t.lvl.toNat).map (.read cfg.regFifoData)

/-- The accesses of TOCARD from its decision on, when it ends in `t`: the drain's for a Transceive that is Ok (R99 to
R103). -/
def decisionAccesses (cmd : ChipCmd) (cfg : Cfg) (t : State) (n c : Byte) : List Access :=
  if t.st = .ok ∧ cmd = .transceive then drainAccesses cfg t n c else []

theorem tocard_eq_decide (cmd : ChipCmd) (s : State) : tocard cmd s = tocardDecide cmd (tocardLatched cmd s) := rfl

/-- What the latches and the cleared response hold when TOCARD decides (R94). -/
theorem tocardLatched_fields (cmd : ChipCmd) (s : State) :
    (tocardLatched cmd s).cfg = s.cfg ∧ (tocardLatched cmd s).en = enableMask cmd ∧
    (tocardLatched cmd s).wait = waitMask cmd ∧ (tocardLatched cmd s).rxbuf = Vector.replicate 16 0 ∧
    (tocardLatched cmd s).rxlen = 0 ∧ (tocardLatched cmd s).lvl = s.lvl ∧ (tocardLatched cmd s).lastb = s.lastb := by
  obtain ⟨_, hcfg, _, _, hrxbuf, hrxlen, hlvl, hlastb, hen, hwait⟩ := tocardPrelude_ran cmd s
  have hloops : eraseLoops (poll .irq (tocardIssue cmd (tocardPrelude cmd s))) = eraseLoops (tocardPrelude cmd s) :=
    (eraseLoops_poll .irq _).trans (eraseLoops_issue cmd _)
  obtain ⟨kcfg, _, _, krxbuf, krxlen, klvl, klastb, ken, kwait, _⟩ := eraseLoops_fields hloops
  obtain ⟨_, _, _, sen, swait, srxbuf, srxlen, slvl, slastb, scfg⟩ :=
    tocardStop_latches (poll .irq (tocardIssue cmd (tocardPrelude cmd s)))
  exact ⟨scfg.trans (kcfg.trans hcfg), sen.trans (ken.trans hen), swait.trans (kwait.trans hwait),
    srxbuf.trans (krxbuf.trans hrxbuf), srxlen.trans (krxlen.trans hrxlen), slvl.trans (klvl.trans hlvl),
    slastb.trans (klastb.trans hlastb)⟩

/-- The accesses up to the decision, in order, and the bounded poll among them (R94 to R99). -/
theorem tocardLatched_ran (cmd : ChipCmd) (s : State) :
    ∃ (x y z : Byte) (polls : List Byte),
      s.bus.Ran (tocardLatched cmd s).bus (latchAccesses cmd s x y z polls (tocardLatched cmd s).errv) ∧
      polls.length = (tocardLatched cmd s).cnt.toNat ∧ (tocardLatched cmd s).cnt.toNat ≤ s.cfg.pollBudget.toNat ∧
      (∀ v ∈ polls.dropLast, terminates .irq (waitMask cmd) v = false) ∧
      (tocardLatched cmd s).irqv = polls.getLast?.getD 0x00 ∧
      ((tocardLatched cmd s).hit = false → (tocardLatched cmd s).cnt = s.cfg.pollBudget) := by
  obtain ⟨⟨x, hprelude⟩, hcfg, htxbuf, htxlen, _⟩ := tocardPrelude_ran cmd s
  obtain ⟨y, hissue⟩ := tocardIssue_ran cmd (tocardPrelude cmd s)
  have hwait := wait_tocardIssue cmd s
  have hicfg := (cfg_tocardIssue cmd (tocardPrelude cmd s)).trans hcfg
  rw [hcfg, htxbuf, htxlen] at hissue
  unfold tocardLatched
  generalize tocardIssue cmd (tocardPrelude cmd s) = u at *
  obtain ⟨polls, hpoll, hlen, hle, hcontinue, hirqv, _, hbudget⟩ := poll_ran .irq u
  obtain ⟨z, hstop⟩ := tocardStop_ran (poll .irq u)
  obtain ⟨scnt, shit, sirqv, _⟩ := tocardStop_latches (poll .irq u)
  rw [hicfg] at hpoll hle hbudget
  rw [cfg_poll, hicfg] at hstop
  rw [hwait] at hcontinue
  rw [scnt, shit, sirqv]
  refine ⟨x, y, z, polls, (((hprelude.append hissue).append hpoll).append hstop).of_eq ?_, hlen, hle, hcontinue, hirqv,
    hbudget⟩
  simp [latchAccesses, PollKind.register]

/-! ## The decision (R99 to R104) -/

/-- R99, R100, R107: the decision keeps the latches it is taken on. -/
theorem tocard_latches (cmd : ChipCmd) (s : State) :
    (tocard cmd s).errv = (tocardLatched cmd s).errv ∧ (tocard cmd s).hit = (tocardLatched cmd s).hit ∧
    (tocard cmd s).irqv = (tocardLatched cmd s).irqv ∧ (tocard cmd s).cnt = (tocardLatched cmd s).cnt ∧
    (tocard cmd s).en = enableMask cmd ∧ (tocard cmd s).wait = waitMask cmd := by
  rw [tocard_eq_decide]
  obtain ⟨herrv, hhit, hirqv, hcnt, hen, hwait, _⟩ := tocardDecide_ran cmd (tocardLatched cmd s)
  obtain ⟨_, cen, cwait, _⟩ := tocardLatched_fields cmd s
  exact ⟨herrv, hhit, hirqv, hcnt, hen.trans cen, hwait.trans cwait⟩

/-- R104: the Status in priority order, on the latches TOCARD ends with. -/
theorem tocard_st (cmd : ChipCmd) (s : State) :
    (tocard cmd s).st =
      (if (tocard cmd s).errv &&& 0x13 ≠ 0 then .error
       else if (tocard cmd s).hit = false then .timeout
       else if (tocard cmd s).irqv &&& 0x01 ≠ 0 ∧ (tocard cmd s).irqv &&& (tocard cmd s).wait = 0 then .timeout
       else if (tocard cmd s).errv &&& 0x08 ≠ 0 then .error
       else .ok) := by
  rw [tocard_eq_decide]
  obtain ⟨herrv, hhit, hirqv, _, _, hwait, hst, _⟩ := tocardDecide_ran cmd (tocardLatched cmd s)
  rw [herrv, hhit, hirqv, hwait, hst]

/-- R103: a Transceive that ends Ok drains the response into the RXBUF that the prelude cleared. -/
theorem tocard_drains (cmd : ChipCmd) (s : State) (hok : (tocard cmd s).st = .ok ∧ cmd = .transceive) :
    ∃ n c : Byte,
      (tocardLatched cmd s).bus.Ran (tocard cmd s).bus (drainAccesses s.cfg (tocard cmd s) n c) ∧
      (tocard cmd s).lvl.toNat = min (max n.toNat 1) 16 ∧ (tocard cmd s).lastb.toNat = c.toNat % 8 ∧
      (tocard cmd s).rxlen.toNat =
        (if c.toNat % 8 = 0 then 8 * max n.toNat 1 else 8 * (max n.toNat 1 - 1) + c.toNat % 8) ∧
      (tocard cmd s).rxbuf.toList.drop (tocard cmd s).lvl.toNat =
        List.replicate (16 - (tocard cmd s).lvl.toNat) 0x00 := by
  rw [tocard_eq_decide] at hok ⊢
  obtain ⟨_, _, _, _, _, _, _, hdrain, _⟩ := tocardDecide_ran cmd (tocardLatched cmd s)
  obtain ⟨n, c, hran, hlvl, hlastb, hrxlen, hrest⟩ := hdrain hok
  obtain ⟨hcfg, _, _, hrxbuf, _⟩ := tocardLatched_fields cmd s
  rw [hcfg] at hran
  rw [hrxbuf, Vector.toList_replicate, List.drop_replicate] at hrest
  exact ⟨n, c, hran, hlvl, hlastb, hrxlen, hrest⟩

/-- R94, R99 to R101: every other TOCARD makes no access after the error read and leaves the cleared response. -/
theorem tocard_without_drain (cmd : ChipCmd) (s : State) (hno : ¬ ((tocard cmd s).st = .ok ∧ cmd = .transceive)) :
    (tocard cmd s).bus = (tocardLatched cmd s).bus ∧ (tocard cmd s).rxbuf = Vector.replicate 16 0x00 ∧
    (tocard cmd s).rxlen = 0 ∧ (tocard cmd s).lvl = s.lvl ∧ (tocard cmd s).lastb = s.lastb := by
  rw [tocard_eq_decide] at hno ⊢
  obtain ⟨_, _, _, _, _, _, _, _, hnone⟩ := tocardDecide_ran cmd (tocardLatched cmd s)
  obtain ⟨hbus, hrxbuf, hrxlen, hlvl, hlastb⟩ := hnone hno
  obtain ⟨_, _, _, crxbuf, crxlen, clvl, clastb⟩ := tocardLatched_fields cmd s
  exact ⟨hbus, hrxbuf.trans crxbuf, hrxlen.trans crxlen, hlvl.trans clvl, hlastb.trans clastb⟩

/-- R92: the decision makes the drain's accesses where the drain runs, else none. -/
theorem tocard_ran (cmd : ChipCmd) (s : State) :
    ∃ n c : Byte,
      (tocardLatched cmd s).bus.Ran (tocard cmd s).bus (decisionAccesses cmd s.cfg (tocard cmd s) n c) := by
  unfold decisionAccesses
  by_cases hok : (tocard cmd s).st = .ok ∧ cmd = .transceive
  · obtain ⟨n, c, hran, _⟩ := tocard_drains cmd s hok
    exact ⟨n, c, by rwa [if_pos hok]⟩
  · obtain ⟨hbus, _⟩ := tocard_without_drain cmd s hok
    exact ⟨0, 0, by rw [if_neg hok, hbus]; exact .nil _⟩

/-! ## The number of exchanges (R106) -/

theorem exchangesOf_append (l m : List Access) : exchangesOf (l ++ m) = exchangesOf l + exchangesOf m := by
  simp [exchangesOf]

theorem exchangesOf_map_of_two {f : Byte → Access} (hf : ∀ v, (f v).exchanges = 2) (vs : List Byte) :
    exchangesOf (vs.map f) = 2 * vs.length := by
  simp [exchangesOf, Function.comp_def, hf, Nat.mul_comm]

theorem exchangesOf_latchAccesses (cmd : ChipCmd) (s : State) (x y z : Byte) (polls : List Byte) (e : Byte) :
    exchangesOf (latchAccesses cmd s x y z polls e) =
      2 * (6 + s.txlen.val + 1 + (if cmd = .transceive then 2 else 0) + polls.length + 2 + 1) := by
  have hload := exchangesOf_map_of_two (f := .write s.cfg.regFifoData) (fun _ => rfl) (s.txbuf.toList.take s.txlen.val)
  have hpolls := exchangesOf_map_of_two (f := .read s.cfg.regComIrq) (fun _ => rfl) polls
  rw [List.length_take, Vector.length_toList, Nat.min_eq_left (by omega)] at hload
  simp only [latchAccesses, exchangesOf_append, hload, hpolls]
  split_ifs <;> (simp [exchangesOf, Access.exchanges]; omega)

/-- R103: the drain reads LVL data bytes, which RXBUF holds. -/
theorem exchangesOf_drainAccesses (cfg : Cfg) (t : State) (n c : Byte) (h : t.lvl.toNat ≤ 16) :
    exchangesOf (drainAccesses cfg t n c) = 2 * (2 + t.lvl.toNat) := by
  have hdata := exchangesOf_map_of_two (f := .read cfg.regFifoData) (fun _ => rfl) (t.rxbuf.toList.take t.lvl.toNat)
  rw [List.length_take, Vector.length_toList, Nat.min_eq_left h] at hdata
  have hhead : drainAccesses cfg t n c = [.read cfg.regFifoLevel n, .read cfg.regControl c] ++
      (t.rxbuf.toList.take t.lvl.toNat).map (.read cfg.regFifoData) := rfl
  rw [hhead, exchangesOf_append, hdata, Nat.mul_add]
  rfl

theorem exchangesOf_decisionAccesses (cmd : ChipCmd) (s : State) (n c : Byte) :
    exchangesOf (decisionAccesses cmd s.cfg (tocard cmd s) n c) =
      2 * (if (tocard cmd s).st = .ok ∧ cmd = .transceive then 2 + (tocard cmd s).lvl.toNat else 0) := by
  unfold decisionAccesses
  split_ifs with hok
  · obtain ⟨_, _, _, hlvl, _⟩ := tocard_drains cmd s hok
    exact exchangesOf_drainAccesses _ _ _ _ (by omega)
  · rfl

/-! ## The frame (R107) -/

/-- Two states that agree where TOCARD's registers are erased differ in those registers only. -/
theorem eq_of_eraseTocard {s t : State} (h : eraseTocard t = eraseTocard s) :
    t = { s with
      en := t.en, wait := t.wait, rxbuf := t.rxbuf, rxlen := t.rxlen, cnt := t.cnt, irqv := t.irqv, hit := t.hit,
      errv := t.errv, tmp := t.tmp, idx := t.idx, lvl := t.lvl, lastb := t.lastb, st := t.st, bus := t.bus } := by
  cases t
  simp only [eraseTocard, State.mk.injEq] at h
  simp [h]

/-! ## The obligations -/

/-- Settles O14: the accesses up to the decision (`tocardLatched_ran`), then those of the decision (`tocard_ran`). -/
theorem tocardMakesItsTransactions : Obligations.TocardMakesItsTransactions := by
  intro cmd s
  obtain ⟨x, y, z, polls, hlatch, hlen, hle, hcontinue, hirqv, hbudget⟩ := tocardLatched_ran cmd s
  obtain ⟨n, c, hdecide⟩ := tocard_ran cmd s
  obtain ⟨kerrv, khit, kirqv, kcnt, ken, kwait⟩ := tocard_latches cmd s
  obtain ⟨_, hhit⟩ := hit_tocardLatched cmd s
  obtain ⟨henable, hwaitmask, _⟩ := codeTablesAreAsListed
  obtain ⟨es, htrace, hshows⟩ := (hlatch.append hdecide).trace
  rw [← kerrv] at hshows
  rw [← kcnt] at hlen hle hbudget
  rw [← kirqv] at hirqv hhit
  rw [← khit] at hhit hbudget
  refine ⟨_, es, polls, x, y, z, n, c, rfl, htrace, ken.trans (henable cmd), kwait.trans (hwaitmask cmd), ?_, hlen, hle,
    ?_, hirqv, ?_, hbudget⟩
  · rw [ken]
    exact hshows
  · rw [kwait]
    simpa [terminates, anyBit] using hcontinue
  · rw [hhit, kwait]
    simp [terminates, anyBit]

/-- Settles O15: the decision's priority (`tocard_st`), NoTag not among its results. -/
theorem tocardStatusFollowsThePriority : Obligations.TocardStatusFollowsThePriority :=
  fun cmd s => ⟨_, rfl, tocard_st cmd s, tocard_st_ne_noTag cmd s⟩

/-- Settles O16: the drain's accesses follow those up to the decision. -/
theorem tocardDrainDecodesTheLength : Obligations.TocardDrainDecodesTheLength := by
  refine fun s => ⟨_, rfl, fun hst => ?_⟩
  obtain ⟨_, _, _, _, hlatch, _⟩ := tocardLatched_ran .transceive s
  obtain ⟨n, c, hdrain, hresponse⟩ := tocard_drains .transceive s ⟨hst, rfl⟩
  obtain ⟨before, hbefore, _⟩ := hlatch.trace
  obtain ⟨es, htrace, hshows⟩ := hdrain.trace
  rw [hbefore] at htrace
  exact ⟨before, es, n, c, htrace, hshows, hresponse⟩

/-- Settles O17: no drain runs (`tocard_without_drain`). -/
theorem tocardWithoutDrainLeavesNoResponse : Obligations.TocardWithoutDrainLeavesNoResponse := by
  refine fun cmd s => ⟨_, rfl, fun hno => ?_⟩
  obtain ⟨_, hresponse⟩ := tocard_without_drain cmd s fun ⟨hst, hcmd⟩ => hno.elim (· hst) (· hcmd)
  exact hresponse

/-- Settles O18: nothing but TOCARD's own registers changes (`eraseTocard_tocard`). -/
theorem tocardFrame : Obligations.TocardFrame :=
  fun cmd s => ⟨_, rfl, eq_of_eraseTocard (eraseTocard_tocard cmd s)⟩

/-- Settles O20: two exchanges for each access made. -/
theorem tocardTransactionCount : Obligations.TocardTransactionCount := by
  refine fun cmd s => ⟨_, rfl, ?_⟩
  obtain ⟨x, y, z, polls, hlatch, hlen, _⟩ := tocardLatched_ran cmd s
  obtain ⟨n, c, hdecide⟩ := tocard_ran cmd s
  obtain ⟨_, _, _, kcnt, _⟩ := tocard_latches cmd s
  calc (tocard cmd s).bus.xcount
      = s.bus.xcount + (exchangesOf (latchAccesses cmd s x y z polls (tocardLatched cmd s).errv) +
          exchangesOf (decisionAccesses cmd s.cfg (tocard cmd s) n c)) := by
        rw [(hlatch.append hdecide).xcount, exchangesOf_append]
    _ = _ := by
        rw [exchangesOf_latchAccesses, exchangesOf_decisionAccesses, hlen, kcnt, ← Nat.mul_add]

end Sys2Proof.Machine

/-! PROOFS. CALCCRC whole (R110 to R116): the accesses and latches up to its result, then what a hit and a miss leave. -/

namespace Sys2Proof.Machine

/-! ## Up to the result (R111 to R113) -/

/-- CALCCRC when its poll is over. -/
def calccrcPolled (s : State) : State := poll .crc (calccrcIssue s)

/-- The accesses of CALCCRC before its result reads (R111 to R113): `x` is the byte ClearCrcIrq reads, `polls` those the poll
reads. -/
def crcPollAccesses (s : State) (x : Byte) (polls : List Byte) : List Access :=
  [.read s.cfg.regDivIrq x, .write s.cfg.regDivIrq (x &&& 0xFB), .write s.cfg.regFifoLevel 0x80,
    .write s.cfg.regCommand s.cfg.cmdIdle]
    ++ (s.txbuf.toList.take s.txlen.val).map (.write s.cfg.regFifoData)
    ++ [.write s.cfg.regCommand s.cfg.cmdCalccrc]
    ++ polls.map (.read s.cfg.regDivIrq)

theorem eraseLoops_calccrcIssue (s : State) : eraseLoops (calccrcIssue s) = eraseLoops s := by simp [calccrcIssue]

/-- R111 to R113: CNT, IRQV, HIT, TMP and IDX are all that is written before the result, besides the bus. -/
theorem eraseLoops_calccrcPolled (s : State) : eraseLoops (calccrcPolled s) = eraseLoops s :=
  (eraseLoops_poll .crc _).trans (eraseLoops_calccrcIssue s)

/-- The accesses up to the result, in order, and the bounded poll among them (R111 to R113). -/
theorem calccrcPolled_ran (s : State) :
    ∃ (x : Byte) (polls : List Byte),
      s.bus.Ran (calccrcPolled s).bus (crcPollAccesses s x polls) ∧
      polls.length = (calccrcPolled s).cnt.toNat ∧ (calccrcPolled s).cnt.toNat ≤ s.cfg.crcBudget.toNat ∧
      (∀ v ∈ polls.dropLast, anyBit v 0x04 = false) ∧
      (calccrcPolled s).irqv = polls.getLast?.getD 0x00 ∧
      (calccrcPolled s).hit = anyBit (calccrcPolled s).irqv 0x04 ∧
      ((calccrcPolled s).hit = false → (calccrcPolled s).cnt = s.cfg.crcBudget) := by
  obtain ⟨x, hissue⟩ := calccrcIssue_ran s
  obtain ⟨polls, hpoll, hlatches⟩ := poll_ran .crc (calccrcIssue s)
  obtain ⟨hcfg, _⟩ := eraseLoops_fields (eraseLoops_calccrcIssue s)
  rw [hcfg] at hpoll hlatches
  exact ⟨x, polls, hissue.append hpoll, hlatches⟩

/-! ## The result (R114) -/

/-- R114: a missed poll ends in Timeout and nothing else is written. -/
theorem calccrc_of_miss {s : State} (h : (calccrcPolled s).hit = false) :
    calccrc s = { calccrcPolled s with st := .timeout } :=
  if_pos (show (!(calccrcPolled s).hit) = true by rw [h]; rfl)

/-- R114: a hit goes on to the result reads. -/
theorem calccrc_of_hit {s : State} (h : (calccrcPolled s).hit = true) : calccrc s = calccrcResult (calccrcPolled s) :=
  if_neg (show ¬ (!(calccrcPolled s).hit) = true by simp [h])

/-- R114: the result keeps the poll's latches, on a hit as on a miss. -/
theorem calccrc_latches (s : State) :
    (calccrc s).hit = (calccrcPolled s).hit ∧ (calccrc s).cnt = (calccrcPolled s).cnt ∧
    (calccrc s).irqv = (calccrcPolled s).irqv := by
  cases hhit : (calccrcPolled s).hit with
  | false => simp [calccrc_of_miss hhit, hhit]
  | true =>
    obtain ⟨_, _, khit, kcnt, kirqv⟩ := calccrcResult_ran (calccrcPolled s)
    rw [calccrc_of_hit hhit]
    exact ⟨khit.trans hhit, kcnt, kirqv⟩

theorem calccrc_st (s : State) : (calccrc s).st = if (calccrc s).hit = true then .ok else .timeout := by
  obtain ⟨khit, _⟩ := calccrc_latches s
  rw [khit]
  cases hhit : (calccrcPolled s).hit with
  | false => rw [calccrc_of_miss hhit]; rfl
  | true =>
    obtain ⟨_, hst, _⟩ := calccrcResult_ran (calccrcPolled s)
    rw [calccrc_of_hit hhit, hst]
    rfl

/-- R114: on a hit the two halves are read, low first, into CRC; on a miss there is no further access. -/
theorem calccrc_ran (s : State) :
    (calccrcPolled s).bus.Ran (calccrc s).bus
      (if (calccrc s).hit = true then
        [.read s.cfg.regCrcResultL (calccrc s).crcLo, .read s.cfg.regCrcResultH (calccrc s).crcHi] else []) := by
  obtain ⟨khit, _⟩ := calccrc_latches s
  rw [khit]
  cases hhit : (calccrcPolled s).hit with
  | false => rw [calccrc_of_miss hhit]; exact .nil _
  | true =>
    obtain ⟨hran, _⟩ := calccrcResult_ran (calccrcPolled s)
    obtain ⟨hcfg, _⟩ := eraseLoops_fields (eraseLoops_calccrcPolled s)
    rw [hcfg] at hran
    rw [calccrc_of_hit hhit]
    exact hran

/-- R114: a Timeout keeps CRC. -/
theorem calccrc_miss_keeps_crc {s : State} (h : (calccrc s).hit = false) :
    (calccrc s).crcLo = s.crcLo ∧ (calccrc s).crcHi = s.crcHi := by
  obtain ⟨khit, _⟩ := calccrc_latches s
  obtain ⟨_, _, _, _, _, _, _, _, _, _, hlo, hhi, _⟩ := eraseLoops_fields (eraseLoops_calccrcPolled s)
  rw [calccrc_of_miss (khit.symm.trans h)]
  exact ⟨hlo, hhi⟩

/-! ## The frame (R115) -/

/-- Two states that agree where CALCCRC's registers are erased differ in those registers only. -/
theorem eq_of_eraseCrc {s t : State} (h : eraseCrc t = eraseCrc s) :
    t = { s with
      tmp := t.tmp, idx := t.idx, cnt := t.cnt, irqv := t.irqv, hit := t.hit, crcLo := t.crcLo, crcHi := t.crcHi,
      st := t.st, bus := t.bus } := by
  cases t
  simp only [eraseCrc, State.mk.injEq] at h
  simp [h]

/-! ## The obligations -/

/-- Settles O21: the accesses up to the result (`calccrcPolled_ran`), then the result reads (`calccrc_ran`). -/
theorem calccrcMakesItsTransactions : Obligations.CalccrcMakesItsTransactions := by
  intro s
  obtain ⟨x, polls, hpolled, hlen, hle, hcontinue, hirqv, hhit, hbudget⟩ := calccrcPolled_ran s
  obtain ⟨khit, kcnt, kirqv⟩ := calccrc_latches s
  obtain ⟨es, htrace, hshows⟩ := (hpolled.append (calccrc_ran s)).trace
  rw [← kcnt] at hlen hle hbudget
  rw [← kirqv] at hirqv hhit
  rw [← khit] at hhit hbudget
  exact ⟨_, es, polls, x, rfl, htrace, hshows, hlen, hle, by simpa [anyBit] using hcontinue, hirqv,
    by rw [hhit, anyBit_iff], fun hmiss => ⟨hbudget hmiss, calccrc_miss_keeps_crc hmiss⟩, calccrc_st s⟩

/-- Settles O22: nothing but CALCCRC's own registers changes (`eraseCrc_calccrc`). -/
theorem calccrcFrame : Obligations.CalccrcFrame :=
  fun s => ⟨_, rfl, eq_of_eraseCrc (eraseCrc_calccrc s)⟩

end Sys2Proof.Machine

/-! PROOFS. Card activation (R118 to R130): each step as what its TOCARD leaves and one assignment, where NoTag comes from,
and the halt frame in the FIFO. -/

namespace Sys2Proof.Machine

/-! ## The tests on an answer (R118, R121, R124) -/

/-- R118, R119: sixteen bits or Error, and a Timeout becomes the silent status. -/
theorem afterRequest_tests (silent : Status) (rxlen : BitVec 16) (st : Status) :
    afterRequestSilence silent (afterRequestLength rxlen st) =
      if st = .ok then (if rxlen = 16 then .ok else .error) else if st = .timeout then silent else st := by
  cases st with
  | ok => by_cases hlen : rxlen = 16#16 <;> simp [afterRequestSilence, afterRequestLength, hlen]
  | noTag | error | timeout => simp [afterRequestSilence, afterRequestLength]

theorem checksumOk_rxId_iff (s : State) :
    checksumOk s.rxId = true ↔ s.rxbuf[0] ^^^ s.rxbuf[1] ^^^ s.rxbuf[2] ^^^ s.rxbuf[3] = s.rxbuf[4] := beq_iff_eq

/-- R121: the checksum of RXBUF[0..4] decides on an answer that was Ok. -/
theorem assign_anticollCheck (s : State) :
    assign .anticollCheck s =
      if s.st = .ok then
        if s.rxbuf[0] ^^^ s.rxbuf[1] ^^^ s.rxbuf[2] ^^^ s.rxbuf[3] = s.rxbuf[4] then
          { s with uid := ⟨s.rxbuf[0], s.rxbuf[1], s.rxbuf[2], s.rxbuf[3], s.rxbuf[4]⟩ }
        else { s with st := .error }
      else s := by
  simp only [assign, checksumOk_rxId_iff]
  rfl

/-- R124: the length decides on an answer that was Ok. -/
theorem assign_selectCheck (s : State) :
    assign .selectCheck s =
      if s.st = .ok then if s.rxlen = 24 then { s with cardType := s.rxbuf[0] } else { s with st := .error }
      else s := rfl

/-! ## REQUEST and SELECT by what they call (R118, R124) -/

theorem cfg_sendRequestFrame (m : Byte) (s : State) : (sendRequestFrame m s).cfg = s.cfg := by
  obtain ⟨hcfg, _⟩ := eraseRun_fields (eraseRun_sendRequestFrame m s)
  exact hcfg

/-- R118, R119: REQUEST changes nothing but the Status its frame left. -/
theorem request_eq (m : Byte) (s : State) :
    request m s =
      { sendRequestFrame m s with
        st :=
          if (sendRequestFrame m s).st = .ok then (if (sendRequestFrame m s).rxlen = 16 then .ok else .error)
          else if (sendRequestFrame m s).st = .timeout then s.cfg.reqSilentStatus
          else (sendRequestFrame m s).st } := by
  rw [← afterRequest_tests, ← cfg_sendRequestFrame m s]
  rfl

theorem select_of_not_ok {s : State} (h : (calccrc (assign .txSelect s)).st ≠ .ok) :
    select s = calccrc (assign .txSelect s) := if_pos (bne_iff_ne.2 h)

theorem select_of_ok {s : State} (h : (calccrc (assign .txSelect s)).st = .ok) :
    select s = selectTransceive (calccrc (assign .txSelect s)) :=
  if_neg fun hne => bne_iff_ne.1 hne h

/-! ## Where NoTag comes from (R119, R130) -/

/-- R104, R119: TOCARD never gives NoTag, so a REQUEST gives it only in place of a Timeout. -/
theorem request_st_eq_noTag_iff (m : Byte) (s : State) :
    (request m s).st = .noTag ↔ (sendRequestFrame m s).st = .timeout ∧ s.cfg.reqSilentStatus = .noTag := by
  have hnever : (sendRequestFrame m s).st ≠ .noTag := tocard_st_ne_noTag _ _
  rw [request_eq]
  generalize sendRequestFrame m s = u at *
  cases hst : u.st with
  | noTag => exact absurd hst hnever
  | ok => by_cases hlen : u.rxlen = 16#16 <;> simp [hlen]
  | error | timeout => simp

/-- A guarded step that never gives NoTag itself passes on the NoTag it finds, and no other Status becomes one. -/
theorem stepOn_st_eq_noTag_iff {f : State → State} (hf : ∀ u, (f u).st ≠ .noTag) (s : State) :
    (s.stepOn f).st = .noTag ↔ s.st = .noTag := by
  unfold State.stepOn
  split
  · next hok => simp [hf, hok]
  · rfl

theorem anticoll_st_ne_noTag (s : State) : (anticoll s).st ≠ .noTag := by
  obtain ⟨_, _, _, hst, _⟩ := anticoll_keeps s
  exact hst

theorem select_st_ne_noTag (s : State) : (select s).st ≠ .noTag := by
  obtain ⟨_, _, _, hst⟩ := select_keeps s
  exact hst

/-- R130: CHECKCARD ends with NoTag exactly where its REQUEST gave NoTag. -/
theorem checkcard_status_eq_noTag_iff {s t : State} (h : exec .checkcard s = .next t) :
    t.status = .noTag ↔ (afterRequest s).st = .noTag := by
  obtain ⟨hstatus, _⟩ := checkcard_result h
  rw [hstatus, stepOn_st_eq_noTag_iff select_st_ne_noTag, stepOn_st_eq_noTag_iff anticoll_st_ne_noTag]

/-! ## The halt frame in the FIFO (R127, R128) -/

/-- R71: the first four bytes of TXBUF are the halt frame. -/
theorem take_haltFrame (v : Vector Byte 16) (lo hi : Byte) :
    ((((v.set 0 0x50).set 1 0x00).set 2 lo).set 3 hi).toList.take 4 = [0x50, 0x00, lo, hi] := by
  have hlen : (v.toList.take 4).length = 4 := by simp
  simp only [Vector.toList_set, List.take_set]
  match v.toList.take 4, hlen with
  | [_, _, _, _], _ => rfl

/-- The accesses of a Transceive that send its frame (R95, R96): the bytes to the FIFO, then the command. -/
def sendAccesses (s : State) : List Access :=
  (s.txbuf.toList.take s.txlen.val).map (.write s.cfg.regFifoData) ++ [.write s.cfg.regCommand s.cfg.cmdTransceive]

theorem sendAccesses_within_latchAccesses (s : State) (x y z : Byte) (polls : List Byte) (e : Byte) :
    sendAccesses s <:+: latchAccesses .transceive s x y z polls e := by
  simp only [sendAccesses, latchAccesses, List.append_assoc]
  rw [← List.append_assoc (List.map _ _)]
  exact ⟨_, _, List.append_assoc _ _ _⟩

theorem tocard_transceive_sends (s : State) :
    ∃ l, s.bus.Ran (tocard .transceive s).bus l ∧ sendAccesses s <:+: l := by
  obtain ⟨x, y, z, polls, hlatch, _⟩ := tocardLatched_ran .transceive s
  obtain ⟨_, _, hdecide⟩ := tocard_ran .transceive s
  have hsend := sendAccesses_within_latchAccesses s x y z polls (tocardLatched .transceive s).errv
  exact ⟨_, hlatch.append hdecide, hsend.trans (List.IsPrefix.isInfix ⟨_, rfl⟩)⟩

/-- The accesses that send the halt frame (R128): its four bytes, with the CRC that `t` holds, and the command. -/
def haltAccesses (cfg : Cfg) (t : State) : List Access :=
  [.write cfg.regFifoData 0x50, .write cfg.regFifoData 0x00, .write cfg.regFifoData t.crcLo,
    .write cfg.regFifoData t.crcHi, .write cfg.regCommand cfg.cmdTransceive]

/-- R127: with 50 00 in TXBUF and the CRC after it, what a Transceive sends is the halt frame. -/
theorem sendAccesses_haltFrame {s : State} {v : Vector Byte 16} (h : s.txbuf = (v.set 0 0x50).set 1 0x00) :
    sendAccesses (assign (.txCrc 2 4) s) = haltAccesses s.cfg s := by
  have hframe : (assign (.txCrc 2 4) s).txbuf.toList.take 4 = [0x50, 0x00, s.crcLo, s.crcHi] := by
    rw [assign_txCrc_halt, h]
    exact take_haltFrame v s.crcLo s.crcHi
  have hlen : (assign (.txCrc 2 4) s).txlen.val = 4 := rfl
  rw [sendAccesses, hlen, hframe, cfg_assign]
  rfl

/-- R115: CALCCRC keeps the frame. -/
theorem txbuf_calccrc (s : State) : (calccrc s).txbuf = s.txbuf := by
  change (eraseCrc (calccrc s)).txbuf = (eraseCrc s).txbuf
  rw [eraseCrc_calccrc]

/-- R107: TOCARD keeps the CRC that was sent. -/
theorem haltAccesses_transceived (cfg : Cfg) (s : State) :
    haltAccesses cfg (tocard .transceive (assign (.txCrc 2 4) s)) = haltAccesses cfg s := by
  obtain ⟨_, _, _, _, hlo, hhi⟩ := results_tocard .transceive (assign (.txCrc 2 4) s)
  rw [haltAccesses, hlo, hhi]
  rfl

/-- R127: HALT computes a CRC and then sends the frame with the CRC it ends with. -/
theorem halt_sends (s : State) : ∃ l, s.bus.Ran (halt s).bus l ∧ haltAccesses s.cfg (halt s) <:+: l := by
  obtain ⟨crc, hcrc⟩ := makes_assign_calccrc (.tx [0x50, 0x00] 2) s nofun
  have htxbuf := txbuf_calccrc (assign (.tx [0x50, 0x00] 2) s)
  have hcfg := cfg_calccrc (assign (.tx [0x50, 0x00] 2) s)
  rw [cfg_assign] at hcfg
  rw [halt, haltAccesses_transceived]
  rw [assign_tx_two] at *
  generalize calccrc _ = k at *
  obtain ⟨send, hsend, hwithin⟩ := tocard_transceive_sends (assign (.txCrc 2 4) k)
  rw [sendAccesses_haltFrame htxbuf, hcfg] at hwithin
  exact ⟨crc ++ send, hcrc.append hsend, hwithin.trans (List.suffix_append _ _).isInfix⟩

/-! ## The obligations -/

/-- Settles O23: REQUEST by what its frame left (`request_eq`). -/
theorem requestDemandsSixteenBits : Obligations.RequestDemandsSixteenBits := by
  intro m s
  refine ⟨_, rfl, congrArg Host.Outcome.next ?_⟩
  rw [← sendRequestFrame_eq]
  exact request_eq m s

/-- Settles O24: ANTICOLL is the check on what its frame left (`assign_anticollCheck`). -/
theorem anticollChecksTheChecksum : Obligations.AnticollChecksTheChecksum := by
  intro s
  refine ⟨_, rfl, congrArg Host.Outcome.next ?_⟩
  rw [← sendAnticollFrame_eq]
  exact assign_anticollCheck _

/-- Settles O25: SELECT ends with CALCCRC where that was not Ok, else with the check on what its frame left. -/
theorem selectDemandsTwentyFourBits : Obligations.SelectDemandsTwentyFourBits := by
  intro s
  refine ⟨_, _, rfl, rfl, ?_⟩
  rw [← assign_txSelect]
  refine ⟨select_of_not_ok, fun hok => ⟨_, rfl, ?_⟩⟩
  rw [← assign_txCrc_select, ← assign_selectCheck]
  exact select_of_ok hok

/-- Settles O26: HALT goes on from CALCCRC without a test. -/
theorem haltSendsItsFrameWhateverHappens : Obligations.HaltSendsItsFrameWhateverHappens := by
  intro s
  refine ⟨_, _, rfl, rfl, congrArg Host.Outcome.next ?_⟩
  rw [← assign_tx_two, ← assign_txCrc_halt]
  rfl

/-- Settles O31: NoTag passes from REQUEST to the end (`checkcard_status_eq_noTag_iff`), and REQUEST gives it for a Timeout
alone (`request_st_eq_noTag_iff`). -/
theorem noTagComesFromASilentRequestOnly : Obligations.NoTagComesFromASilentRequestOnly := by
  intro s
  have hend := checkcard_status_eq_noTag_iff (s := s) rfl
  have hrequest := request_st_eq_noTag_iff s.cfg.reqMode { s with uid := CardId.zero, cardType := 0 }
  rw [sendRequestFrame_eq] at hrequest
  exact ⟨_, afterRequest s, _, rfl, rfl, rfl, fun ht => ⟨hend.1 ht, hrequest.1 (hend.1 ht)⟩, hend.2⟩

/-- Settles O32: the accesses before HALT, then HALT's own (`halt_sends`). -/
theorem checkcardPutsTheHaltFrameInTheFifo : Obligations.CheckcardPutsTheHaltFrameInTheFifo := by
  intro s
  obtain ⟨first, hactivate⟩ := makes_activate s
  obtain ⟨_, hhalt, before, after, rfl⟩ := halt_sends (activate s)
  obtain ⟨hcfg, _⟩ := eraseRun_fields (eraseRun_activate s)
  rw [hcfg] at hhalt
  obtain ⟨es, htrace, hshows⟩ := (hactivate.append hhalt).trace
  rw [← List.append_assoc, ← List.append_assoc] at hshows
  exact ⟨_, es, first ++ before, after, rfl, htrace, hshows⟩

end Sys2Proof.Machine

/-! PROOFS. The host operations (R132 to R138): what INIT, VERSION, CHECKCARD and COMPAREIDS leave, a start while BUSY = 1,
and the end that every started operation reaches, move by move. -/

namespace Sys2Proof.Machine

/-! ## INIT, CHECKCARD and COMPAREIDS (R133, R135, R138) -/

/-- R133: accesses write nothing but TMP and the bus. -/
theorem runItems_eq (l : List Item) (s : State) :
    runItems l s = { s with tmp := (runItems l s).tmp, bus := (runItems l s).bus } := by
  induction l generalizing s with
  | nil => rfl
  | cons it l ih =>
    rw [runItems, ih]
    cases it <;> rfl

/-- R135: HALT leaves CHECKCARD's own Status, which STATUS then takes. -/
theorem publishStatus_halt (s : State) : assign .publishStatus (halt s) = { halt s with status := s.ckst } := by
  obtain ⟨_, _, hckst⟩ := halt_keeps s
  rw [← hckst]
  rfl

/-- R135: a guarded step of CHECKCARD runs its instruction after an Ok, and otherwise nothing. -/
theorem exec_stepOn {i : Instr} {f : State → State} (hf : ∀ u, exec i u = .next (f u)) (s : State) :
    if s.st = .ok then exec i { s with ckst := .ok } = .next (s.stepOn f) else s.stepOn f = s := by
  unfold State.stepOn
  split
  · exact hf _
  · rfl

theorem compareIds_eq (a b : CardId) :
    compareIds a b =
      if a.b0 = b.b0 ∧ a.b1 = b.b1 ∧ a.b2 = b.b2 ∧ a.b3 = b.b3 ∧ a.b4 = b.b4 then .ok else .error := by
  simp [compareIds, and_assoc]

/-! ## A started operation (R27, R132) -/

/-- The sequencer while a host operation runs, with `ls` left to run and no caller (R132). -/
def Sequencer.operation (opc : BitVec 2) (ls : List Line) : Sequencer :=
  { busy := true, opr := hostOpr opc, ph := ls, ret := [] }

/-- R132: an idle engine accepts a due start, and the operation's instruction is its one line. -/
theorem step_of_start_idle {s : State} {opc : BitVec 2} {a b : CardId} {ms : List Move} (hw : s.cfg.wf = true)
    (hb : s.seq.busy = false) (hm : s.moves = .start opc a b :: ms) :
    step s =
      .next { s with
        opc := opc, ida := a, idb := b, seq := .operation opc [.instr (hostInstr opc)], moves := ms } := by
  rw [step_of_start hw hm, startEvent, if_neg (by simp [hb])]
  rfl

/-- R132: a busy engine ignores a due start. -/
theorem step_of_start_busy {s : State} {opc : BitVec 2} {a b : CardId} {ms : List Move} (hw : s.cfg.wf = true)
    (hb : s.seq.busy = true) (hm : s.moves = .start opc a b :: ms) : step s = .next { s with moves := ms } := by
  rw [step_of_start hw hm, startEvent, if_pos hb]

/-- A run goes on from what its first step leaves. -/
theorem run_succ_of_step {s t : State} (h : step s = .next t) (n : Nat) :
    Host.Core.run core (n + 1) s = Host.Core.run core n t := by
  have hstep : core.step s = .next t := h
  simp only [Host.Core.run, hstep]

/-- R27 (d): with no line and no caller left, the next engine move ends the operation. -/
theorem engineStep_end (opc : BitVec 2) (s : State) :
    EngineStep (s.withSeq (.operation opc [])) (s.withSeq Sequencer.idle) := fun _ => rfl

/-- R3, R132: from its one line, a started operation reaches the idle engine with the registers its instruction gives. -/
theorem engineReaches_idle {opc : BitVec 2} {s u : State} (h : exec (hostInstr opc) s = .next u) :
    EngineReaches (s.withSeq (.operation opc [.instr (hostInstr opc)])) (u.withSeq Sequencer.idle) :=
  (runs_instr h (.operation opc []) rfl).tail (engineStep_end opc u)

/-! ## The obligations -/

/-- Settles O51: the start puts the operation's line on PH, the engine moves of `engineReaches_idle` follow. -/
theorem hostOperationsEnd : Obligations.HostOperationsEnd := by
  intro s opc a b hw hb
  let started : State := { s with opc := opc, ida := a, idb := b, seq := .operation opc [] }
  obtain ⟨u, hexec⟩ := exists_next_exec (hostInstr opc) started
  obtain ⟨n, hn⟩ := run_of_engineReaches (engineReaches_idle hexec) hw
  refine ⟨n, u, hexec, ?_⟩
  have hstart := step_of_start_idle (s := { s with moves := .start opc a b :: List.replicate n .engine }) hw hb rfl
  have hmoves := hn []
  rw [List.append_nil] at hmoves
  exact (run_succ_of_step hstart n).trans hmoves

/-- Settles O27: the accesses of the program (`runItems_ran`), from the state with TERR cleared. -/
theorem initRunsItsProgram : Obligations.InitRunsItsProgram := by
  intro s
  obtain ⟨accesses, hitems, hran⟩ := runItems_ran s.cfg.initProgram (assign .clearTerr s)
  obtain ⟨es, htrace, hshows⟩ := hran.trace
  refine ⟨_, es, accesses, rfl, runItems_eq _ _, htrace, hitems, hshows, ?_⟩
  have hcount : (runItems s.cfg.initProgram (assign .clearTerr s)).bus.xcount - s.bus.xcount =
      exchangesOf accesses.flatten := by
    rw [hran.xcount]
    exact Nat.add_sub_cancel_left _ _
  rw [hcount, hran.terr]
  rfl

/-- Settles O29: the guarded steps (`activate_eq`, `exec_stepOn`), then HALT and STATUS (`publishStatus_halt`). -/
theorem checkcardRunsTheStepsAndAlwaysHalts : Obligations.CheckcardRunsTheStepsAndAlwaysHalts := by
  intro s
  refine ⟨afterRequest s, _, _, _, rfl, exec_stepOn (f := anticoll) (fun _ => rfl) _,
    exec_stepOn (f := select) (fun _ => rfl) _, rfl, congrArg Host.Outcome.next ?_⟩
  rw [publishStatus_halt, activate_eq]

/-- Settles O28: the read in closed form. -/
theorem versionReadsTheVersionRegister : Obligations.VersionReadsTheVersionRegister := by
  intro s
  refine congrArg Host.Outcome.next ?_
  rw [readReg_eq]
  rfl

/-- Settles O33: the five comparisons as one condition. -/
theorem compareidsComparesFiveBytes : Obligations.CompareidsComparesFiveBytes := by
  intro s
  rw [← compareIds_eq]
  rfl

/-- Settles O42: a busy engine ignores the due start. -/
theorem startIsIgnoredWhileBusy : Obligations.StartIsIgnoredWhileBusy := fun _ _ _ _ _ => step_of_start_busy

end Sys2Proof.Machine

/-! PROOFS. IDLE (R162): the instruction that completes and keeps every register. -/

namespace Sys2Proof.Machine

/-- Settles O34: `exec` answers IDLE with `execIdle`, whose next state is the state it was given, by definition. -/
theorem idleKeepsEverything : Obligations.IdleKeepsEverything := fun s =>
  calc exec .idle s
    _ = execIdle s := rfl
    _ = .next s := rfl

end Sys2Proof.Machine

/-! PROOFS. The reset event (R163, R164): a due reset reaches the engine in every state of the sequencer. -/

namespace Sys2Proof.Machine

/-- R163: a due reset reaches the engine, idle or busy. -/
theorem step_of_reset {s : State} {ms : List Move} (hw : s.cfg.wf = true) (hm : s.moves = .reset :: ms) :
    step s = .next (resetEvent { s with moves := ms }) := by
  simp only [step, hw, if_true, stepMove, hm]

/-- R164: the one event a reset can emit is a SelRelease, and only out of an asserted select line. -/
theorem resetEvent_trace (s : State) :
    (resetEvent s).bus.trace = if s.bus.sel = true then s.bus.trace ++ [.selRelease] else s.bus.trace := by
  rw [resetEvent]
  split
  · rfl
  · exact List.append_nil _

/-- Settles O43: the due reset (`step_of_reset`), with its trace by the select line (`resetEvent_trace`); every other field
is as `resetEvent` gives it. -/
theorem resetEventClearsEveryRegister : Obligations.ResetEventClearsEveryRegister := by
  intro s ms hw hm
  rw [step_of_reset hw hm, ← resetEvent_trace { s with moves := ms }]
  rfl

end Sys2Proof.Machine
